-- ==== Sys2Proof/Word.lean ====
section
/-! DEFINITION. The word types of the KBU (00_scope.md R8, R11) and the plain records its state is made of:
the engine cursor, the datapath latches and the catalog entry. -/

namespace Sys2Proof

/-- R11: a byte is 8 bits. -/
abbrev Byte := BitVec 8

/-- R11: a nibble is 4 bits; a framebuffer entry and a key digit are nibbles (R103, R104). -/
abbrev Nibble := BitVec 4

/-- R11, R60: a word is 32 bits, the width of every host transaction. -/
abbrev Word := BitVec 32

/-- R38, R104: a CharKey is 128 bits, 32 nibbles. -/
abbrev Key := BitVec 128

/-- R60: what the bus carries of a byte address `a` is the word address `a[16:2]`, 15 bits. -/
abbrev WordAddr := BitVec 15

/-- R41: the engine's cursor, the loop indices `(y, x, i, j)` of the unpack phase (R167) and `(y, x, r, c)` of the
catalog phase (R200), whose `r` and `c` stand in the fields `i` and `j`. -/
structure Pos where
  y : Fin 25
  x : Fin 40
  i : Fin 8
  j : Fin 4
  deriving DecidableEq, Repr, Inhabited

/-- R42: the datapath latches a phase uses; none is readable or writable by the host. -/
structure Latches where
  /-- current bitmap byte -/
  b    : Byte
  /-- screen-RAM byte of the current cell -/
  scr  : Byte
  /-- color-RAM byte of the current cell -/
  col  : Byte
  /-- background byte -/
  bg   : Byte
  /-- 2-bit code of the current wide pixel -/
  code : BitVec 2
  /-- the key being assembled -/
  key  : Key
  deriving DecidableEq, Repr, Inhabited

/-- R38, R105: a catalog entry, a 128-bit KEY and a 32-bit COUNT. -/
structure CatEntry where
  key   : Key
  count : Word
  deriving DecidableEq, Repr, Inhabited

end Sys2Proof
end

