-- ==== Sys2Proof/Config.lean ====
section
/-! DEFINITION. What is fixed for the machine: the geometry of 00_scope.md R7, and, as constants without a body, the
open parameters of R9 and the values the spec leaves unspecified (10_state.md R43, 93_implementation_defined.md U1, U2). -/

namespace Sys2Proof.Config

/-- R7: character cells per row. -/
@[simp] abbrev cols : Nat := 40
/-- R7: COLS x ROWS, one screen-RAM and one color-RAM byte each. -/
@[simp] abbrev ncells : Nat := 1000
/-- R7: framebuffer entries per row (wide pixels). -/
@[simp] abbrev fbW : Nat := 160
/-- R7: framebuffer entries. -/
@[simp] abbrev fbN : Nat := 32000
/-- R7, R96: offset of the screen-RAM region. -/
@[simp] abbrev screenOff : Nat := 8000
/-- R7, R96: offset of the color-RAM region. -/
@[simp] abbrev colorOff : Nat := 9000
/-- R7, R96: offset of the background-color byte. -/
@[simp] abbrev bgOff : Nat := 10000
/-- R7, R97: the exact input length. -/
@[simp] abbrev imgLen : Nat := 10001
/-- R7: the maximum number of catalog entries, one key per cell. -/
@[simp] abbrev catMax : Nat := 1000
/-- R61: the block's host address space is 128 KiB. -/
@[simp] abbrev hostSpace : Nat := 0x20000

/-- KBU_BASE (R9, R61): where the platform places the block's address space. No value is given (log 14). -/
opaque kbuBase : Nat

/-- BUS_LATENCY (R9, R60): the time the n-th host transaction takes. No rule depends on it, no definition reads it
(log 14). -/
opaque busLatency : Nat → Nat

/-- RESET_SAMPLING (R9, R250): whether RST_N is sampled synchronously. Reset is one atomic step either way; no
definition reads it (log 14). -/
opaque resetSampledSynchronously : Bool

/-! Unspecified values: constants without a body, applied to the number of the draw (logs 7 and 8). -/

/-- OP_LAT while idle (R43, U2). -/
opaque freeOpLat : Nat → BitVec 4
/-- K_LAT while idle (R43, U2). -/
opaque freeKLat : Nat → BitVec 1
/-- The cursor while idle (R41, R43, U2). -/
opaque freeCursor : Nat → Option Pos
/-- The datapath latches while idle (R43, U2). -/
opaque freeLatches : Nat → Latches
/-- IMG contents after a reset event (R43, U1), as addresses and bytes. -/
opaque freeImg : Nat → List (Nat × Byte)
/-- FB contents after a reset event (R43, U1), as indexes and color indices. -/
opaque freeFb : Nat → List (Nat × Nibble)
/-- HIST contents after a reset event (R43, U1). -/
opaque freeHist : Nat → Vector Word 16
/-- CAT contents after a reset event (R43, U1), as indexes and entries. -/
opaque freeCat : Nat → List (Nat × CatEntry)

end Sys2Proof.Config
end

