-- ==== Sys2Proof/Syntax.lean ====
section
/-! DEFINITION. The syntax of the KBU: the host-bus transactions (20_memory.md R60), the locations of the address map
(R61), and `Instr`, one constructor per row of spec/opcode_table.json. -/

namespace Sys2Proof

/-- R60: the two host-bus transactions, `MemRead(a, 4)` and `MemWrite(a, 4, v)`, as the bus carries them: the word
address HADDR[16:2] and, for a write, the 32-bit word. There is no other access size and no burst. -/
inductive HostTxn where
  | read  (addr : WordAddr)
  | write (addr : WordAddr) (data : Word)
  deriving DecidableEq, Repr

/-- R20: the eleven host-visible registers. -/
inductive Reg where
  | id | cmd | status | errCode | cfg | inCtrl | inData | inCount | intEn | intStatus | catSize
  deriving DecidableEq, Repr

/-- R61: what a word address names. -/
inductive Loc where
  /-- a register of R20 -/
  | reg (r : Reg)
  /-- HIST[c] (R64) -/
  | hist (c : Fin 16)
  /-- word k of the IMG window (R63) -/
  | img (k : Nat)
  /-- word w of the FB window (R65) -/
  | fb (w : Nat)
  /-- word q of catalog entry e (R66) -/
  | cat (e : Nat) (q : Fin 8)
  /-- a reserved address (R34, R62) -/
  | reserved
  deriving DecidableEq, Repr

/-- The instructions: the rows of spec/opcode_table.json, each with the row's fields. The `ignored` fields are bits a
row names and no rule reads; they are kept so that no bit of a transaction is lost in decoding. -/
inductive Instr where
  /-- NOP (R135) -/
  | nop
  /-- LOAD (R140) -/
  | load
  /-- UNPACK (R170) -/
  | unpack
  /-- CATALOG (R201) -/
  | catalog
  /-- CLEAR (R137) -/
  | clear
  /-- IN_RESET (R120): a write to IN_CTRL with bit 0 = 1; bits 31:1 ignored -/
  | inReset (ignored : BitVec 31)
  /-- IN_PUSH (R122): a write to IN_DATA, the byte in bits 7:0; bits 31:8 ignored -/
  | inPush (byte : Byte) (ignored : BitVec 24)
  /-- CFG_WR (R123): a write to CFG, KEYTAB in bit 0; bits 31:1 ignored -/
  | cfgWr (keytab : BitVec 1) (ignored : BitVec 31)
  /-- INT_EN_WR (R123): a write to INT_EN, DONE_IE, ERR_IE and VIOL_IE in bits 0, 1 and 2; bits 31:3 ignored -/
  | intEnWr (doneIe errIe violIe : BitVec 1) (ignored : BitVec 29)
  /-- INT_ACK (R124): a write to INT_STATUS, the bits to clear in bits 2:0; bits 31:3 ignored -/
  | intAck (clr : BitVec 3) (ignored : BitVec 29)
  /-- RD (R125): a read at a byte offset of the 128 KiB space -/
  | rd (offset : BitVec 17)
  deriving DecidableEq, Repr

end Sys2Proof
end

