-- ==== Sys2Proof/WellFormed.lean ====
section
/-! DEFINITION. Which instructions the host can issue. Every field has exactly its row's width, so the one check is the
alignment of a read's offset: a byte offset names a word, and `a[1:0]` is not part of the interface (20_memory.md R60, R68). -/

namespace Sys2Proof

/-- R60, R68: a read's byte offset names a word. -/
def Instr.wellFormed : Instr → Bool
  | .nop | .load | .unpack | .catalog | .clear => true
  | .inReset _ | .inPush _ _ | .cfgWr _ _ | .intEnWr _ _ _ _ | .intAck _ _ => true
  | .rd offset => offset.extractLsb' 0 2 == 0

/-- `Instr.wellFormed` as a proposition. -/
abbrev WellFormed (i : Instr) : Prop := i.wellFormed = true

end Sys2Proof
end

