-- ==== Sys2Proof/Decode.lean ====
section
/-! DEFINITION. Decoding and encoding: the address map (20_memory.md R61), the command word (30_encoding.md R90 to R95)
and the host writes (10_state.md R20 to R31). Decoding is total on every transaction; what is no row of the opcode table is
rejected by name. -/

namespace Sys2Proof

/-! ### The address map -/

/-- R20: the register at word address `n` (byte offset `4*n`), 0..10. -/
def regAt : Nat → Option Reg
  | 0 => some .id
  | 1 => some .cmd
  | 2 => some .status
  | 3 => some .errCode
  | 4 => some .cfg
  | 5 => some .inCtrl
  | 6 => some .inData
  | 7 => some .inCount
  | 8 => some .intEn
  | 9 => some .intStatus
  | 10 => some .catSize
  | _ => none

/-- R61: the address map, by word address (byte offset / 4). -/
def locate (a : WordAddr) : Loc :=
  let n := a.toNat
  if n < 0x40 then
    match regAt n with
    | some r => .reg r
    | none => .reserved
  else if n < 0x50 then .hist (Fin.ofNat 16 (n - 0x40))
  else if n < 0x1000 then .reserved
  else if n < 0x19C5 then .img (n - 0x1000)
  else if n < 0x2000 then .reserved
  else if n < 0x2FA0 then .fb (n - 0x2000)
  else if n < 0x4000 then .reserved
  else if n < 0x5F40 then .cat ((n - 0x4000) / 8) (Fin.ofNat 8 (n - 0x4000))
  else .reserved

/-- R20, R61: the word address of a byte offset (`a[1:0]` is dropped, R68). -/
def wordAddr (offset : BitVec 17) : WordAddr := offset.extractLsb' 2 15

/-- Word address of CMD, byte offset 0x004 (R22). -/
def cmdAddr : WordAddr := wordAddr 0x004
/-- Word address of CFG, byte offset 0x010 (R26). -/
def cfgAddr : WordAddr := wordAddr 0x010
/-- Word address of IN_CTRL, byte offset 0x014 (R27). -/
def inCtrlAddr : WordAddr := wordAddr 0x014
/-- Word address of IN_DATA, byte offset 0x018 (R28). -/
def inDataAddr : WordAddr := wordAddr 0x018
/-- Word address of INT_EN, byte offset 0x020 (R30). -/
def intEnAddr : WordAddr := wordAddr 0x020
/-- Word address of INT_STATUS, byte offset 0x024 (R31). -/
def intStatusAddr : WordAddr := wordAddr 0x024

/-! ### The opcodes -/

/-- R91: opcode of NOP. -/
def opNop : BitVec 4 := 0x0
/-- R91: opcode of LOAD. -/
def opLoad : BitVec 4 := 0x1
/-- R91: opcode of UNPACK. -/
def opUnpack : BitVec 4 := 0x2
/-- R91: opcode of CATALOG. -/
def opCatalog : BitVec 4 := 0x3
/-- R91: opcode of CLEAR. -/
def opClear : BitVec 4 := 0x4

/-! ### Decoding -/

/-- Why a transaction is no row of the opcode table. None of these stops the machine: the step gives each the effect the
spec gives it (`Machine.runRejected`). -/
inductive Reject where
  /-- R92, R139: a CMD word with RSV != 0 or OP in 0x5..0xF -/
  | illegalCommand
  /-- R120: a write to IN_CTRL with bit 0 = 0 -/
  | inCtrlWithoutRst
  /-- R20, R62: a write to a read-only register -/
  | readOnlyRegister
  /-- R62: a write to a read-only window (HIST, IMG, FB, CAT) -/
  | readOnlyWindow
  /-- R34, R62: a write to a reserved address -/
  | reservedAddress
  deriving DecidableEq, Repr

/-- R90 to R92: the command word, OP in bits 3:0 and RSV, which must be 0, in bits 31:4. -/
def decodeCmd (w : Word) : Except Reject Instr :=
  if w.extractLsb' 4 28 ≠ 0 then .error .illegalCommand
  else
    let op := w.extractLsb' 0 4
    if op = opNop then .ok .nop
    else if op = opLoad then .ok .load
    else if op = opUnpack then .ok .unpack
    else if op = opCatalog then .ok .catalog
    else if op = opClear then .ok .clear
    else .error .illegalCommand

/-- R27, R120: a write to IN_CTRL; bit 0 is RST. -/
def decodeInCtrl (w : Word) : Except Reject Instr :=
  if w.extractLsb' 0 1 = 1 then .ok (.inReset (w.extractLsb' 1 31)) else .error .inCtrlWithoutRst

/-- R20: a write to a register, by its access type. -/
def decodeRegWrite (r : Reg) (w : Word) : Except Reject Instr :=
  match r with
  | .cmd => decodeCmd w
  | .cfg => .ok (.cfgWr (w.extractLsb' 0 1) (w.extractLsb' 1 31))
  | .inCtrl => decodeInCtrl w
  | .inData => .ok (.inPush (w.extractLsb' 0 8) (w.extractLsb' 8 24))
  | .intEn => .ok (.intEnWr (w.extractLsb' 0 1) (w.extractLsb' 1 1) (w.extractLsb' 2 1) (w.extractLsb' 3 29))
  | .intStatus => .ok (.intAck (w.extractLsb' 0 3) (w.extractLsb' 3 29))
  | .id | .status | .errCode | .inCount | .catSize => .error .readOnlyRegister

/-- The decoder: total on every host transaction (R60). -/
def decode : HostTxn → Except Reject Instr
  | .read a => .ok (.rd (a ++ (0 : BitVec 2)))
  | .write a w =>
    match locate a with
    | .reg r => decodeRegWrite r w
    | .hist _ | .img _ | .fb _ | .cat _ _ => .error .readOnlyWindow
    | .reserved => .error .reservedAddress

/-! ### Encoding -/

/-- R90, R91: the command word of an opcode, RSV = 0. -/
def cmdWord (op : BitVec 4) : Word := (0 : BitVec 28) ++ op

/-- The transaction of an instruction, from the encodings of the opcode table and R106. -/
def encode : Instr → HostTxn
  | .nop => .write cmdAddr (cmdWord opNop)
  | .load => .write cmdAddr (cmdWord opLoad)
  | .unpack => .write cmdAddr (cmdWord opUnpack)
  | .catalog => .write cmdAddr (cmdWord opCatalog)
  | .clear => .write cmdAddr (cmdWord opClear)
  | .inReset ignored => .write inCtrlAddr (ignored ++ (1 : BitVec 1))
  | .inPush byte ignored => .write inDataAddr (ignored ++ byte)
  | .cfgWr keytab ignored => .write cfgAddr (ignored ++ keytab)
  | .intEnWr doneIe errIe violIe ignored => .write intEnAddr (ignored ++ violIe ++ errIe ++ doneIe)
  | .intAck clr ignored => .write intStatusAddr (ignored ++ clr)
  | .rd offset => .read (wordAddr offset)

/-- The transaction a bare word of the opcode table stands for. The table numbers the bits of a 32-bit word and gives
no address bits, and the command map of R90 is the one format whose word alone names the instruction, so a bare word is
the word of a write to CMD (log 10). -/
def tableTxn (w : Nat) : HostTxn := .write cmdAddr (BitVec.ofNat 32 w)

/-- What the decoder reads from a bare word of the opcode table (log 10). -/
def decodeTableWord (nbits w : Nat) : Option Instr :=
  if nbits ≤ 32 then
    match decode (tableTxn (w % 2 ^ nbits)) with
    | .ok i => some i
    | .error _ => none
  else none

end Sys2Proof
end

