-- ==== Sys2Proof/Machine/State.lean ====
section
/-! DEFINITION. The state of the KBU (10_state.md R44), the moves of its environment, the reasons a step could stop, and
the state after reset (R43). -/

namespace Sys2Proof.Machine

/-- A memory as a list of (address, value) pairs in one canonical form (`storeWf` in Ops.lean). -/
abbrev Store (α : Type) := List (Nat × α)

/-- IMG (R35): bytes by index 0..10000. -/
abbrev Memory := List Host.Cell

/-- FB (R36): 4-bit color indices by index 0..31999. -/
abbrev FrameMem := Store Nibble

/-- CAT (R38): catalog entries by index 0..999. -/
abbrev CatMem := Store CatEntry

/-- R39: the phase of the engine. -/
inductive Phase where
  | idle | unpacking | cataloging
  deriving DecidableEq, Repr

/-- A move on the block's inputs (log 1): what can happen next from outside, or the engine's turn. -/
inductive Input where
  /-- a host transaction (R60) -/
  | bus (t : HostTxn)
  /-- a turn of the engine in which it runs `work` of its steps; 0 is a step the implementation adds (R9, R168, log 2) -/
  | engine (work : Nat)
  /-- RST_N falls and rises (R250): one atomic step -/
  | reset
  deriving DecidableEq, Repr

/-- Why a step stops with a fault. The block has no such case: an error is a command completing with an error code
(R220, R226, R232), a write it does not take is refused or ignored with no stop (R62, R133). The type is empty. -/
inductive Fault where
  deriving DecidableEq, Repr

/-- Why a step has no meaning. -/
inductive Refusal where
  /-- An instruction without a meaning yet; raised only by an arm of `exec` that rejects its instruction by name, and no arm
  does. Safe: the model stops where the hardware goes on. -/
  | notModelled (mnemonic : String)
  deriving DecidableEq, Repr

/-- R44: the complete state of the block, and at its end three fields of the model's own (logs 1, 4, 7). -/
structure State where
  /-- CFG.KEYTAB (R26) -/
  cfgKeytab : BitVec 1
  /-- INT_EN: DONE_IE, ERR_IE, VIOL_IE (R30) -/
  intEn     : BitVec 3
  /-- INT_STATUS: DONE, ERR, VIOL (R31) -/
  intStatus : BitVec 3
  /-- ERR_CODE.CODE (R25) -/
  errCode   : BitVec 4
  /-- STATUS.BUSY (R23) -/
  busy      : Bool
  /-- STATUS.FB_VALID (R23) -/
  fbValid   : Bool
  /-- STATUS.CAT_VALID (R23) -/
  catValid  : Bool
  /-- IN_COUNT (R29) -/
  inCount   : BitVec 14
  /-- STATUS.IN_OVF (R23) -/
  inOvf     : Bool
  /-- IMG (R35) -/
  img       : Memory
  /-- FB (R36) -/
  fb        : FrameMem
  /-- HIST (R37) -/
  hist      : Vector Word 16
  /-- CAT (R38) -/
  cat       : CatMem
  /-- NCAT (R32, R38) -/
  ncat      : BitVec 11
  /-- the engine phase (R39) -/
  phase     : Phase
  /-- OP_LAT (R40) -/
  opLat     : BitVec 4
  /-- K_LAT (R40) -/
  kLat      : BitVec 1
  /-- the cursor (R41); `none`: it has passed its last value -/
  cursor    : Option Pos
  /-- the datapath latches (R42) -/
  latches   : Latches
  /-- the model's own: the moves still to come, the next one first (log 1) -/
  inputs    : List Input
  /-- the model's own: the word the last host read answered (log 4) -/
  readData  : Word
  /-- the model's own: how many times unspecified values were drawn (log 7) -/
  draws     : Nat
  deriving DecidableEq, Repr

/-- R43: the state right after reset. The values of OP_LAT, K_LAT, the cursor, the latches and the memories, which R43
leaves unspecified, are the model's (logs 5 and 6), and so are those of the last three fields (logs 1, 4, 7). -/
def State.reset : State where
  cfgKeytab := 0
  intEn     := 0
  intStatus := 0
  errCode   := 0
  busy      := false
  fbValid   := false
  catValid  := false
  inCount   := 0
  inOvf     := false
  img       := []
  fb        := []
  hist      := Vector.replicate 16 0
  cat       := []
  ncat      := 0
  phase     := .idle
  opLat     := 0
  kLat      := 0
  cursor    := none
  latches   := { b := 0, scr := 0, col := 0, bg := 0, code := 0, key := 0 }
  inputs    := []
  readData  := 0
  draws     := 0

end Sys2Proof.Machine
end

