-- ==== Sys2Proof/Machine/Operands.lean ====
section
/-! DEFINITION. The pure functions of the block: code extraction, color multiplexer and addresses (41_unpack.md R160 to
R166), digits and keys (42_catalog.md R191 to R195), the packing of elements in host words (20_memory.md R63 to R67), the
cursor's order (R167, R200), and the platform's addressing (R61, R68). -/

namespace Sys2Proof.Machine

/-! ### Code extraction and the color multiplexer -/

/-- R160: the mask of wide pixel `j`. -/
def codeMask (j : Fin 4) : Byte :=
  match j.val with
  | 0 => 0xC0
  | 1 => 0x30
  | 2 => 0x0C
  | _ => 0x03

/-- R160: `code(b, j) = (b & mask[j]) >> (6 - j*2)`. -/
def code (b : Byte) (j : Fin 4) : BitVec 2 := ((b &&& codeMask j) >>> (6 - j.val * 2)).setWidth 2

/-- R161: the color multiplexer. -/
def mux (c : BitVec 2) (scr col bg : Byte) : Nibble :=
  if c = 0 then bg.extractLsb' 0 4
  else if c = 1 then scr.extractLsb' 4 4
  else if c = 2 then scr.extractLsb' 0 4
  else col.extractLsb' 0 4

/-- R166: the four entries one bitmap byte produces. -/
def expand (b scr col bg : Byte) : List Nibble :=
  [mux (code b 0) scr col bg, mux (code b 1) scr col bg, mux (code b 2) scr col bg, mux (code b 3) scr col bg]

/-! ### Addresses -/

/-- R14, R163: the cell index `y*40 + x`. -/
def cellIndex (p : Pos) : Nat := p.y.val * 40 + p.x.val

/-- R99, R163: the bitmap byte of cell (x, y), line i. -/
def bitmapAddr (p : Pos) : Nat := cellIndex p * 8 + p.i.val

/-- R100, R163: the screen-RAM byte of the cell. -/
def screenAddr (p : Pos) : Nat := Config.screenOff + cellIndex p

/-- R101, R163: the color-RAM byte of the cell. -/
def colorAddr (p : Pos) : Nat := Config.colorOff + cellIndex p

/-- R103, R164: the framebuffer entry of cell (x, y), line i, wide pixel j. -/
def fbAddr (p : Pos) : Nat := (p.y.val * 8 + p.i.val) * Config.fbW + (p.x.val * 4 + p.j.val)

/-! ### The cursor -/

/-- R167, R200: the first position. -/
def firstPos : Pos := { y := 0, x := 0, i := 0, j := 0 }

/-- R167, R200: the position after `p`, innermost index first; none after (24, 39, 7, 3). -/
def nextPos (p : Pos) : Option Pos :=
  if hj : p.j.val + 1 < 4 then some { p with j := ⟨p.j.val + 1, hj⟩ }
  else if hi : p.i.val + 1 < 8 then some { p with i := ⟨p.i.val + 1, hi⟩, j := 0 }
  else if hx : p.x.val + 1 < 40 then some { p with x := ⟨p.x.val + 1, hx⟩, i := 0, j := 0 }
  else if hy : p.y.val + 1 < 25 then some { y := ⟨p.y.val + 1, hy⟩, x := 0, i := 0, j := 0 }
  else none

/-- How many positions come before `p` in the scan order of R167 and R200. -/
def posIndex (p : Pos) : Nat := (cellIndex p * 8 + p.i.val) * 4 + p.j.val

/-! ### Digits and keys -/

/-- R191: the key digit of a color index under digit table `k` (0 canonical, 1 reference). -/
def digit (v : Nibble) (k : BitVec 1) : Nibble :=
  if k = 0 then v
  else if v.toNat ≤ 9 then v
  else if v = 10 then 0
  else v - 1

/-- R104, R193: the digit position `r*4 + c` in the key. -/
def digitPos (p : Pos) : Nat := p.i.val * 4 + p.j.val

/-- R104: digit `n` (0..31) of a key, the lowest position in the most significant bits (log 11). -/
def digitAt (key : Key) (n : Nat) : Nibble := key.extractLsb' (124 - 4 * n) 4

/-- R193: `d[n] <- v`, the other digits unchanged (log 11). -/
def setDigit (key : Key) (n : Nat) (v : Nibble) : Key :=
  (key &&& ~~~((0xF : Key) <<< (124 - 4 * n))) ||| (v.setWidth 128 <<< (124 - 4 * n))

/-- R194: `KEYq = {d[8q], ..., d[8q+7]}`. -/
def keyWord (key : Key) (q : Nat) : Word := key.extractLsb' (96 - 32 * q) 32

/-! ### Elements in host words -/

/-- R63, R67: four bytes in a word, element 0 in the most significant bits. -/
def pack4 (f : Nat → Byte) : Word := f 0 ++ f 1 ++ f 2 ++ f 3

/-- R65, R67: eight nibbles in a word, element 0 in the most significant bits. -/
def pack8 (f : Nat → Nibble) : Word := f 0 ++ f 1 ++ f 2 ++ f 3 ++ f 4 ++ f 5 ++ f 6 ++ f 7

/-! ### The platform's addressing -/

/-- R61, R68: the word address that a bridge presents for a platform byte address `a`, with the block's space placed at
`base`: `a[1:0]` is dropped; none outside the 128 KiB. -/
def bridgeAddr (base a : Nat) : Option WordAddr :=
  if base ≤ a ∧ a < base + Config.hostSpace then some (BitVec.ofNat 15 ((a - base) / 4)) else none

end Sys2Proof.Machine
end

