-- ==== Sys2Proof/Machine/Flags.lean ====
section
/-! DEFINITION. The flag computations: the error codes (60_exceptions.md R220), the INT_STATUS bits and IRQ (10_state.md
R31, R33, R231), the STATUS word (R23) and the length check (40_input_and_load.md R126). -/

namespace Sys2Proof.Machine

/-- R220: the error codes. The code 2, INVALID_COLOR_EXTRACTION, is reserved and never produced (R222), so it has no
name here. -/
inductive ErrCode where
  | none | malformedInput | illegalCmd | noFramebuffer
  deriving DecidableEq, Repr

/-- R220: the value of an error code. -/
def ErrCode.bits : ErrCode → BitVec 4
  | .none => 0
  | .malformedInput => 1
  | .illegalCmd => 3
  | .noFramebuffer => 4

/-- R31: INT_STATUS bit 0. -/
def intDone : BitVec 3 := 0b001
/-- R31: INT_STATUS bit 1. -/
def intErr : BitVec 3 := 0b010
/-- R31: INT_STATUS bit 2. -/
def intViol : BitVec 3 := 0b100

/-- R31, R231: INT_STATUS after set events `set` and a W1C clear `clr`: where both meet one bit, the set wins. -/
def intUpdate (old set clr : BitVec 3) : BitVec 3 := (old &&& ~~~clr) ||| set

/-- R131: the INT_STATUS bits a completion with this code sets. -/
def completionBits (c : ErrCode) : BitVec 3 := if c = .none then intDone else intDone ||| intErr

/-- R33: the IRQ output. -/
def irq (s : State) : Bool := s.intStatus &&& s.intEn != 0

/-- R23: STATUS.IN_FULL. -/
def inFull (s : State) : Bool := decide (s.inCount.toNat = Config.imgLen)

/-- R23: STATUS.ERR. -/
def errFlag (s : State) : Bool := decide (s.errCode ≠ 0)

/-- R126: the input is well-formed iff exactly 10001 bytes were pushed since the last IN_RESET. -/
def inputOk (s : State) : Bool := inFull s && !s.inOvf

/-- R23: the STATUS word. -/
def statusWord (s : State) : Word :=
  (0 : BitVec 26) ++ BitVec.ofBool (errFlag s) ++ BitVec.ofBool s.inOvf ++ BitVec.ofBool (inFull s)
    ++ BitVec.ofBool s.catValid ++ BitVec.ofBool s.fbValid ++ BitVec.ofBool s.busy

end Sys2Proof.Machine
end

