-- ==== Sys2Proof/Machine/Ops.lean ====
section
/-! DEFINITION. The named operations over memories and registers: reading and writing a store, acceptance, completion and
refusal (40_input_and_load.md R130, R131, R133), the input port (R120, R122), host reads (R125) and reset (R250). -/

namespace Sys2Proof.Machine

/-! ### Stores: one canonical form -/

/-- The canonical form of a store over addresses below `n` whose unlisted addresses read `d`: addresses strictly rising,
all below `n`, no entry equal to `d`. -/
abbrev storeWf {α : Type} (n : Nat) (d : α) (m : Store α) : Prop :=
  m.Pairwise (fun p q => p.1 < q.1) ∧ ∀ p ∈ m, p.1 < n ∧ p.2 ≠ d

/-- The value at an address; an unlisted address reads `d`. -/
def storeRead {α : Type} (d : α) : Store α → Nat → α
  | [], _ => d
  | (k, u) :: m, a => if k = a then u else storeRead d m a

/-- Write one address, keeping the canonical form: writing `d` removes the entry. -/
def storeWrite {α : Type} [DecidableEq α] (d : α) : Store α → Nat → α → Store α
  | [], a, v => if v = d then [] else [(a, v)]
  | (k, u) :: m, a, v =>
    if k < a then (k, u) :: storeWrite d m a v
    else if k = a then (if v = d then m else (a, v) :: m)
    else (if v = d then (k, u) :: m else (a, v) :: (k, u) :: m)

/-- The store with the given contents (a later pair wins), in canonical form; addresses from `n` up are left out. -/
def storeOf {α : Type} [DecidableEq α] (n : Nat) (d : α) (l : List (Nat × α)) : Store α :=
  l.foldl (fun m p => if p.1 < n then storeWrite d m p.1 p.2 else m) []

/-- What an unlisted byte of IMG reads as (log 6). -/
def blankByte : Byte := 0
/-- What an unlisted entry of FB reads as (log 6). -/
def blankNibble : Nibble := 0
/-- What an unlisted entry of CAT reads as (log 6). -/
def blankEntry : CatEntry := { key := 0, count := 0 }

/-- The canonical form of IMG (R35). -/
abbrev Memory.wf (m : Memory) : Prop := storeWf Config.imgLen blankByte m
/-- The canonical form of FB (R36). -/
abbrev FrameMem.wf (m : FrameMem) : Prop := storeWf Config.fbN blankNibble m
/-- The canonical form of CAT (R38). -/
abbrev CatMem.wf (m : CatMem) : Prop := storeWf Config.catMax blankEntry m

/-- IMG[a] (R35). -/
def imgRead (m : Memory) (a : Nat) : Byte := storeRead blankByte m a
/-- IMG[a] <- v (R122). -/
def imgWrite (m : Memory) (a : Nat) (v : Byte) : Memory := storeWrite blankByte m a v
/-- FB[n] (R36). -/
def fbRead (m : FrameMem) (n : Nat) : Nibble := storeRead blankNibble m n
/-- FB[n] <- v (R168). -/
def fbWrite (m : FrameMem) (n : Nat) (v : Nibble) : FrameMem := storeWrite blankNibble m n v
/-- CAT[e] (R38). -/
def catRead (m : CatMem) (e : Nat) : CatEntry := storeRead blankEntry m e
/-- CAT[e] <- v (R198). -/
def catWrite (m : CatMem) (e : Nat) (v : CatEntry) : CatMem := storeWrite blankEntry m e v

/-! ### Refusal, acceptance, completion -/

/-- R133, R225: a write refused because the engine is BUSY. -/
def refuse (s : State) : State := { s with intStatus := intUpdate s.intStatus intViol 0#3 }

/-- R131, and for a code other than NONE the error entry of R232: the completion of a command. No state is saved, no mode
changes, no control is transferred; there is no return (R233). -/
def complete (c : ErrCode) (s : State) : State :=
  { s with
    errCode := c.bits
    busy := false
    phase := .idle
    intStatus := intUpdate s.intStatus (completionBits c) 0#3 }

/-- R40 to R43, U2: OP_LAT, K_LAT, the cursor and the latches hold no specified value: they are drawn (logs 7, 8). -/
def drawIdle (s : State) : State :=
  { s with
    opLat := Config.freeOpLat s.draws
    kLat := Config.freeKLat s.draws
    cursor := Config.freeCursor s.draws
    latches := Config.freeLatches s.draws
    draws := s.draws + 1 }

/-- R130, R230: a write to CMD: refused while BUSY, and otherwise accepted, ERR_CODE cleared, before `body`. -/
def accept (body : State → State) (s : State) : State :=
  if s.busy then refuse s else body { s with errCode := 0 }

/-- R130: the last line of an acceptance that goes BUSY: load OP_LAT and K_LAT, set the phase and the first cursor. -/
def start (op : BitVec 4) (ph : Phase) (s : State) : State :=
  { s with
    opLat := op
    kLat := s.cfgKeytab
    busy := true
    phase := ph
    cursor := some firstPos }

/-- R130: what the acceptances of LOAD and UNPACK share: both VALID bits fall, then the length check (R126). -/
def startDecoding (op : BitVec 4) (s : State) : State :=
  let s := { s with fbValid := false, catValid := false }
  if inputOk s then start op .unpacking s else complete .malformedInput s

/-- R130, R201: the acceptance of CATALOG. -/
def startCatalog (s : State) : State :=
  if s.fbValid then start opCatalog .cataloging { s with catValid := false } else complete .noFramebuffer s

/-- R130, R137: the acceptance of CLEAR. -/
def clearResults (s : State) : State :=
  complete .none { s with fbValid := false, catValid := false, ncat := 0 }

/-- R139, R223: the illegal command. -/
def illegalCommand (s : State) : State := accept (complete .illegalCmd) s

/-! ### The input port -/

/-- R120, R133: IN_RESET. -/
def resetInput (s : State) : State :=
  if s.busy then refuse s else { s with inCount := 0, inOvf := false }

/-- R122, R133: IN_PUSH. -/
def pushByte (v : Byte) (s : State) : State :=
  if s.busy then refuse s
  else if s.inCount.toNat < Config.imgLen then
    { s with img := imgWrite s.img s.inCount.toNat v, inCount := s.inCount + 1 }
  else { s with inOvf := true }

/-! ### Host reads -/

/-- R63: `B(m)`. -/
def imgByte (s : State) (m : Nat) : Byte :=
  if m < s.inCount.toNat ∧ m ≤ 10000 then imgRead s.img m else 0

/-- R63: word k of the IMG window. -/
def imgWindow (s : State) (k : Nat) : Word := pack4 fun t => imgByte s (4 * k + t)

/-- R64: word c of the HIST window. -/
def histWindow (s : State) (c : Fin 16) : Word := if s.catValid then s.hist[c] else 0

/-- R65: word w of the FB window. -/
def fbWindow (s : State) (w : Nat) : Word := if s.fbValid then pack8 fun t => fbRead s.fb (8 * w + t) else 0

/-- R66: word q of catalog entry e. -/
def catWindow (s : State) (e : Nat) (q : Fin 8) : Word :=
  if s.catValid ∧ e < s.ncat.toNat then
    if q.val < 4 then keyWord (catRead s.cat e).key q.val
    else if q.val = 4 then (catRead s.cat e).count
    else 0
  else 0

/-- R20 to R32: what a register reads as. -/
def readReg (s : State) : Reg → Word
  | .id => 0x4B4F0007
  | .cmd => 0
  | .status => statusWord s
  | .errCode => s.errCode.setWidth 32
  | .cfg => s.cfgKeytab.setWidth 32
  | .inCtrl => 0
  | .inData => 0
  | .inCount => s.inCount.setWidth 32
  | .intEn => s.intEn.setWidth 32
  | .intStatus => s.intStatus.setWidth 32
  | .catSize => if s.catValid then s.ncat.setWidth 32 else 0

/-- R125: what a location reads as; a reserved address reads 0 (R34, R62). -/
def readLoc (s : State) : Loc → Word
  | .reg r => readReg s r
  | .hist c => histWindow s c
  | .img k => imgWindow s k
  | .fb w => fbWindow s w
  | .cat e q => catWindow s e q
  | .reserved => 0

/-- R60, R125: what the block answers to a read of a word address. -/
def hostRead (s : State) (a : WordAddr) : Word := readLoc s (locate a)

/-! ### Reset and the writes that are no instruction -/

/-- R250, R251: reset. Every piece of state takes its value of R43, the memories and the internal latches values that
are not specified (log 7); what is outside the block, the moves to come and the host's last answer, stays. -/
def resetBlock (s : State) : State :=
  drawIdle
    { State.reset with
      img := storeOf Config.imgLen blankByte (Config.freeImg s.draws)
      fb := storeOf Config.fbN blankNibble (Config.freeFb s.draws)
      hist := Config.freeHist s.draws
      cat := storeOf Config.catMax blankEntry (Config.freeCat s.draws)
      inputs := s.inputs
      readData := s.readData
      draws := s.draws }

/-- The effect of a write that is no row of the opcode table: the illegal command (R139), and writes without an effect
(R62, R120). -/
def runRejected (r : Reject) (s : State) : State :=
  match r with
  | .illegalCommand => illegalCommand s
  | .inCtrlWithoutRst | .readOnlyRegister | .readOnlyWindow | .reservedAddress => s

end Sys2Proof.Machine
end

