-- ==== Sys2Proof/Machine/Engine.lean ====
section
/-! DEFINITION. The engine (R132): the unpack phase (41_unpack.md R168), the catalog phase (42_catalog.md R200), their ends
(R140, R170, R201), and the engine's steps. -/

namespace Sys2Proof.Machine

/-! ### The unpack phase -/

/-- R168: the latches after the loads that stand before the innermost statement at `p`: bg at the start of the phase, scr
and col at the start of a cell, b at the start of a line; then the code of wide pixel j (log 12). -/
def unpackLatches (img : Memory) (l : Latches) (p : Pos) : Latches :=
  let bg := if p = firstPos then imgRead img Config.bgOff else l.bg
  let newCell := p.i = 0 ∧ p.j = 0
  let scr := if newCell then imgRead img (screenAddr p) else l.scr
  let col := if newCell then imgRead img (colorAddr p) else l.col
  let b := if p.j = 0 then imgRead img (bitmapAddr p) else l.b
  { l with bg := bg, scr := scr, col := col, b := b, code := code b p.j }

/-- R168: one execution of the innermost statement, at `p`, and the cursor's advance. -/
def unpackStatement (p : Pos) (s : State) : State :=
  let l := unpackLatches s.img s.latches p
  { s with
    latches := l
    fb := fbWrite s.fb (fbAddr p) (mux l.code l.scr l.col l.bg)
    cursor := nextPos p }

/-- The end of the unpack phase: a LOAD moves to the catalog phase (R140, R168), an UNPACK completes (R170). -/
def endUnpack (s : State) : State :=
  if s.opLat = opLoad then { s with phase := .cataloging, cursor := some firstPos }
  else drawIdle (complete .none { s with fbValid := true })

/-! ### The catalog phase -/

/-- R196: `HIST[v] <- HIST[v] + 1`. -/
def histIncrement (h : Vector Word 16) (v : Nibble) : Vector Word 16 :=
  h.set v.toNat (h[v.toNat]'v.isLt + 1) v.isLt

/-- R198: the entry among the first `n` that holds `key`. -/
def findKey (cat : CatMem) (n : Nat) (key : Key) : Option Nat :=
  (List.range n).find? fun e => (catRead cat e).key == key

/-- R198: catalog insert-or-count. -/
def insertOrCount (key : Key) (s : State) : State :=
  match findKey s.cat s.ncat.toNat key with
  | none =>
    { s with cat := catWrite s.cat s.ncat.toNat { key := key, count := 1 }, ncat := s.ncat + 1 }
  | some e =>
    { s with cat := catWrite s.cat e { catRead s.cat e with count := (catRead s.cat e).count + 1 } }

/-- R197: at the start of the phase the histogram is zeroed and the catalog emptied. -/
def clearCounts (s : State) : State := { s with hist := Vector.replicate 16 0, ncat := 0 }

/-- R196, R200: the innermost body at `p`: the entry is counted and its digit put in the key. -/
def scanEntry (p : Pos) (s : State) : State :=
  let v := fbRead s.fb (fbAddr p)
  { s with
    hist := histIncrement s.hist v
    latches := { s.latches with key := setDigit s.latches.key (digitPos p) (digit v s.kLat) } }

/-- R200: one execution of the innermost body at `p`, with the start of the phase before it at the first position and the
insertion after it at a cell's last position, and the cursor's advance (log 12). -/
def catalogStatement (p : Pos) (s : State) : State :=
  let s := if p = firstPos then clearCounts s else s
  let s := scanEntry p s
  let s := if p.i = 7 ∧ p.j = 3 then insertOrCount s.latches.key s else s
  { s with cursor := nextPos p }

/-- The end of the catalog phase: a LOAD completes with both VALID bits (R140), a CATALOG raises CAT_VALID (R201). -/
def endCatalog (s : State) : State :=
  if s.opLat = opLoad then drawIdle (complete .none { s with fbValid := true, catValid := true })
  else drawIdle (complete .none { s with catValid := true })

/-! ### The engine's steps -/

/-- R132, R168, R200: one engine step; an idle engine does nothing (R240). -/
def engineStep (s : State) : State :=
  match s.phase, s.cursor with
  | .idle, _ => s
  | .unpacking, some p => unpackStatement p s
  | .unpacking, none => endUnpack s
  | .cataloging, some p => catalogStatement p s
  | .cataloging, none => endCatalog s

/-- `n` engine steps. -/
def engineRun : Nat → State → State
  | 0, s => s
  | n + 1, s => engineRun n (engineStep s)

end Sys2Proof.Machine
end

