-- ==== Sys2Proof/Machine/Commands.lean ====
section
/-! DEFINITION. The meanings of the five commands, each the acceptance step of its CMD write (R130); what a command that
goes BUSY does after it is the engine's (Engine.lean). -/

namespace Sys2Proof.Machine

/-- NOP (R135). -/
def execNop (s : State) : Host.Outcome State Fault Refusal := .next (accept (complete .none) s)

/-- LOAD (R140): the length check and the start of the unpack phase; the engine then runs both phases. -/
def execLoad (s : State) : Host.Outcome State Fault Refusal := .next (accept (startDecoding opLoad) s)

/-- UNPACK (R170): the length check and the start of the unpack phase; the engine then runs it. -/
def execUnpack (s : State) : Host.Outcome State Fault Refusal := .next (accept (startDecoding opUnpack) s)

/-- CATALOG (R201): the framebuffer check and the start of the catalog phase; the engine then runs it. -/
def execCatalog (s : State) : Host.Outcome State Fault Refusal := .next (accept startCatalog s)

/-- CLEAR (R137). -/
def execClear (s : State) : Host.Outcome State Fault Refusal := .next (accept clearResults s)

end Sys2Proof.Machine
end

