-- ==== Sys2Proof/Machine/HostRegs.lean ====
section
/-! DEFINITION. The meanings of the host operations on the configuration and interrupt registers, and of host reads. None
is ever refused (R123 to R125, R133). -/

namespace Sys2Proof.Machine

/-- CFG_WR (R123). Bits 31:1 are ignored. -/
def execCfgWr (keytab : BitVec 1) (_ignored : BitVec 31) (s : State) : Host.Outcome State Fault Refusal :=
  .next { s with cfgKeytab := keytab }

/-- INT_EN_WR (R123). Bits 31:3 are ignored. -/
def execIntEnWr (doneIe errIe violIe : BitVec 1) (_ignored : BitVec 29) (s : State) :
    Host.Outcome State Fault Refusal :=
  .next { s with intEn := violIe ++ errIe ++ doneIe }

/-- INT_ACK (R124). Bits 31:3 are ignored. -/
def execIntAck (clr : BitVec 3) (_ignored : BitVec 29) (s : State) : Host.Outcome State Fault Refusal :=
  .next { s with intStatus := intUpdate s.intStatus 0#3 clr }

/-- RD (R125): the block's state is not changed; the answer stands on the read-data port (log 4). `offset[1:0]` is not
carried by the bus (R60, R68). -/
def execRd (offset : BitVec 17) (s : State) : Host.Outcome State Fault Refusal :=
  .next { s with readData := hostRead s (wordAddr offset) }

end Sys2Proof.Machine
end

