-- ==== Sys2Proof/Machine/InputPort.lean ====
section
/-! DEFINITION. The meanings of the host operations on the input port. -/

namespace Sys2Proof.Machine

/-- IN_RESET (R120). Bits 31:1 are ignored. -/
def execInReset (_ignored : BitVec 31) (s : State) : Host.Outcome State Fault Refusal := .next (resetInput s)

/-- IN_PUSH (R122). Bits 31:8 are ignored. -/
def execInPush (byte : Byte) (_ignored : BitVec 24) (s : State) : Host.Outcome State Fault Refusal :=
  .next (pushByte byte s)

end Sys2Proof.Machine
end

