-- ==== Sys2Proof/Machine/Dispatch.lean ====
section
/-! DEFINITION. One arm per constructor of `Instr`. -/

namespace Sys2Proof.Machine

def exec (i : Instr) (s : State) : Host.Outcome State Fault Refusal :=
  match i with
  | .nop => Sys2Proof.Machine.execNop s
  | .load => Sys2Proof.Machine.execLoad s
  | .unpack => Sys2Proof.Machine.execUnpack s
  | .catalog => Sys2Proof.Machine.execCatalog s
  | .clear => Sys2Proof.Machine.execClear s
  | .inReset ignored => Sys2Proof.Machine.execInReset ignored s
  | .inPush byte ignored => Sys2Proof.Machine.execInPush byte ignored s
  | .cfgWr keytab ignored => Sys2Proof.Machine.execCfgWr keytab ignored s
  | .intEnWr doneIe errIe violIe ignored => Sys2Proof.Machine.execIntEnWr doneIe errIe violIe ignored s
  | .intAck clr ignored => Sys2Proof.Machine.execIntAck clr ignored s
  | .rd offset => Sys2Proof.Machine.execRd offset s

end Sys2Proof.Machine
end

