-- ==== Sys2Proof/Machine/Step.lean ====
section
/-! DEFINITION. One step of the machine: the next move of `inputs` (log 1), or, when none is waiting, an engine step
(R132), and the placing of an instruction as the next move. -/

namespace Sys2Proof.Machine

/-- R60, R62, R139: one host transaction: the decoded instruction, or the effect of a write that is none. -/
def busStep (t : HostTxn) (s : State) : Host.Outcome State Fault Refusal :=
  match decode t with
  | .ok i => exec i s
  | .error r => .next (runRejected r s)

/-- One step (log 1): the first waiting move, taken off the queue; with none waiting, the engine takes a step of its own
(R132), which for an idle engine changes nothing (R240). -/
def step (s : State) : Host.Outcome State Fault Refusal :=
  match s.inputs with
  | [] => .next (engineStep s)
  | .bus t :: rest => busStep t { s with inputs := rest }
  | .engine work :: rest => .next (engineRun work { s with inputs := rest })
  | .reset :: rest => .next (resetBlock { s with inputs := rest })

/-- The state with the transaction of an opcode-table word as the next move (logs 1 and 10). -/
def State.withFetchWord (s : State) (nbits w : Nat) : State :=
  { s with inputs := .bus (tableTxn (w % 2 ^ nbits)) :: s.inputs }

end Sys2Proof.Machine
end

