-- ==== Sys2Proof/Safety.lean ====
section
/-! DEFINITION. What holds in every safe state, and what claims are stated in: the invariant of the block, the reachable
states, and the key of a cell. -/

namespace Sys2Proof.Machine

/-- The invariant of the block: the STATUS invariants of R24, the ranges of R25, R29 and R38, the phases of R39, the canonical
form of the memories, and what holds while a command runs (R130, R140, R170, R200, R201, R226). -/
structure Inv (s : State) : Prop where
  imgWf : Memory.wf s.img
  fbWf : FrameMem.wf s.fb
  catWf : CatMem.wf s.cat
  /-- R24: CAT_VALID = 1 implies FB_VALID = 1 -/
  catValid_fbValid : s.catValid = true → s.fbValid = true
  /-- R24: BUSY = 1 implies CAT_VALID = 0 -/
  busy_catValid : s.busy = true → s.catValid = false
  /-- R24: BUSY = 1 with LOAD or UNPACK running implies FB_VALID = 0 -/
  busy_fbValid : s.busy = true → s.opLat = opLoad ∨ s.opLat = opUnpack → s.fbValid = false
  /-- R24: IN_OVF = 1 implies IN_COUNT = 10001 -/
  inOvf_full : s.inOvf = true → s.inCount.toNat = Config.imgLen
  /-- R29: IN_COUNT never exceeds 10001 -/
  inCount_le : s.inCount.toNat ≤ Config.imgLen
  /-- R38: NCAT is in 0..1000 -/
  ncat_le : s.ncat.toNat ≤ Config.catMax
  /-- R25: only the codes 0, 1, 3 and 4 are ever produced -/
  errCode_legal : s.errCode = 0 ∨ s.errCode = 1 ∨ s.errCode = 3 ∨ s.errCode = 4
  /-- R39: IDLE iff BUSY = 0 -/
  idle_iff : s.phase = .idle ↔ s.busy = false
  /-- R130: a running command has cleared ERR_CODE -/
  busy_errCode : s.busy = true → s.errCode = 0
  /-- R140, R170: what runs the unpack phase -/
  unpacking_op : s.phase = .unpacking → s.opLat = opLoad ∨ s.opLat = opUnpack
  /-- R140, R201: what runs the catalog phase -/
  cataloging_op : s.phase = .cataloging → s.opLat = opLoad ∨ s.opLat = opCatalog
  /-- R201: CATALOG runs over a valid framebuffer -/
  catalog_fbValid : s.busy = true → s.opLat = opCatalog → s.fbValid = true
  /-- R126: the input of a running LOAD or UNPACK is well-formed -/
  busy_inputOk : s.busy = true → s.opLat = opLoad ∨ s.opLat = opUnpack → inputOk s = true
  /-- R198: at most one insertion per cell -/
  cataloging_ncat : s.phase = .cataloging → ∀ p, s.cursor = some p → p ≠ firstPos → s.ncat.toNat ≤ cellIndex p

/-- The states that a run reaches from reset, with any moves on the inputs, which may arrive at any time (log 1). -/
inductive Reachable : State → Prop where
  | reset (moves : List Input) : Reachable { State.reset with inputs := moves }
  | arrive (s : State) (moves : List Input) : Reachable s → Reachable { s with inputs := s.inputs ++ moves }
  | step (s t : State) : Reachable s → step s = .next t → Reachable t

/-- R193: the key of cell (x, y) of a framebuffer under digit table `k`: digit `n = r*4 + c` is the digit of the entry at row
`y*8 + r`, column `x*4 + c`. -/
def cellKey (fb : FrameMem) (k : BitVec 1) (y x : Nat) : Key :=
  (List.range 32).foldl
    (fun key n => setDigit key n (digit (fbRead fb ((y * 8 + n / 4) * 160 + (x * 4 + n % 4))) k)) 0

/-- R193, R199: the key of the cell with cell index `c = y*40 + x`. -/
def keyOfCell (fb : FrameMem) (k : BitVec 1) (c : Nat) : Key := cellKey fb k (c / 40) (c % 40)

/-- R171: the framebuffer entry the unpack phase gives position `p` of an image. -/
def pixel (img : Memory) (p : Pos) : Nibble :=
  mux (code (imgRead img (bitmapAddr p)) p.j) (imgRead img (screenAddr p)) (imgRead img (colorAddr p))
    (imgRead img Config.bgOff)

end Sys2Proof.Machine
end

