-- ==== Sys2Proof/Certificates/Slice0/Obligations.lean ====
section
/-! DEFINITION. The statements for the provers, each formalising rules of spec/ (OBLIGATIONS.json cites them). -/

open Sys2Proof Sys2Proof.Machine

/-! ### Encoding -/

/-- R60, R90, R91, R106: decoding the transaction of a well-formed instruction gives it back. -/
def Obligations.DecodeOfEncodeIsTheInstruction : Prop :=
  ∀ i : Instr, WellFormed i → decode (encode i) = .ok i

/-- R60, R90, R106: a transaction that decodes to an instruction is that instruction's own, and the instruction is
well-formed: no two transactions are one instruction. -/
def Obligations.EncodeOfDecodeIsTheTransaction : Prop :=
  ∀ (t : HostTxn) (i : Instr), decode t = .ok i → encode i = t ∧ WellFormed i

/-- R95: every word written to CMD (word address 1) decodes by its whole value. -/
def Obligations.EveryCommandWordDecodes : Prop :=
  ∀ w : Word, decode (.write 1 w) =
    if w = 0x0 then .ok .nop
    else if w = 0x1 then .ok .load
    else if w = 0x2 then .ok .unpack
    else if w = 0x3 then .ok .catalog
    else if w = 0x4 then .ok .clear
    else .error .illegalCommand

/-- R26 to R31: what a word written to CFG, IN_CTRL, IN_DATA, INT_EN and INT_STATUS (word addresses 4, 5, 6, 8, 9) decodes
to, by its fields. -/
def Obligations.RegisterWritesDecodeToTheirFields : Prop :=
  ∀ w : Word,
    decode (.write 4 w) = .ok (.cfgWr (w.extractLsb' 0 1) (w.extractLsb' 1 31)) ∧
    (w.getLsbD 0 = true → decode (.write 5 w) = .ok (.inReset (w.extractLsb' 1 31))) ∧
    (w.getLsbD 0 = false → decode (.write 5 w) = .error .inCtrlWithoutRst) ∧
    decode (.write 6 w) = .ok (.inPush (w.extractLsb' 0 8) (w.extractLsb' 8 24)) ∧
    decode (.write 8 w) =
      .ok (.intEnWr (w.extractLsb' 0 1) (w.extractLsb' 1 1) (w.extractLsb' 2 1) (w.extractLsb' 3 29)) ∧
    decode (.write 9 w) = .ok (.intAck (w.extractLsb' 0 3) (w.extractLsb' 3 29))

/-- Transactions written out from R91, R106 and the opcode table decode to the instructions they stand for. -/
def Obligations.WrittenOutTransactionsDecode : Prop :=
  decode (.write 1 0x00000001) = .ok .load ∧
  decode (.write 1 0x00000011) = .error .illegalCommand ∧
  decode (.write 5 0x00000001) = .ok (.inReset 0) ∧
  decode (.write 6 0x0000010E) = .ok (.inPush 0x0E 1) ∧
  decode (.write 8 0x00000005) = .ok (.intEnWr 1 0 1 0) ∧
  decode (.read 0x2000) = .ok (.rd 0x08000)

/-! ### The step -/

/-- R60: when the next move is a transaction that decodes to an instruction, the step is `exec` of it, with the move
taken off the queue (the queue is the model's own, log 1). -/
def Obligations.StepRunsTheDecodedInstruction : Prop :=
  ∀ (s : State) (t : HostTxn) (i : Instr) (rest : List Input),
    s.inputs = .bus t :: rest → decode t = .ok i → step s = exec i { s with inputs := rest }

/-- The model's queue (logs 1, 2, 3): a step takes the first move off it, a transaction (R60), a turn of the engine or a
reset (R250); with no move waiting the engine takes a step of its own (R132), which leaves an idle block as it is
(R240). -/
def Obligations.StepTakesTheNextMoveOrAnEngineStep : Prop :=
  ∀ s : State,
    (∀ t rest, s.inputs = .bus t :: rest → step s = busStep t { s with inputs := rest }) ∧
    (∀ work rest, s.inputs = .engine work :: rest → step s = .next (engineRun work { s with inputs := rest })) ∧
    (∀ rest, s.inputs = .reset :: rest → step s = .next (resetBlock { s with inputs := rest })) ∧
    (s.inputs = [] → step s = .next (engineStep s)) ∧
    (s.inputs = [] → s.phase = .idle → step s = .next s)

/-- R226, R232, R62: no step stops: errors are completions, and every transaction is permitted (R234). -/
def Obligations.EveryStepAnswersANextState : Prop :=
  ∀ s : State, ∃ t, step s = .next t

/-- R139, R223: a CMD word with RSV != 0 or OP in 0x5..0xF completes with ILLEGAL_CMD when the engine is idle and changes
nothing else; while BUSY it is refused with VIOL instead. -/
def Obligations.IllegalCommandCompletesWithItsCode : Prop :=
  ∀ (s : State) (w : Word),
    w.extractLsb' 4 28 ≠ 0 ∨ 5 ≤ (w.extractLsb' 0 4).toNat →
    (s.busy = false → s.phase = .idle →
      busStep (.write 1 w) s = .next { s with errCode := 3, intStatus := s.intStatus ||| 0b011 }) ∧
    (s.busy = true → busStep (.write 1 w) s = .next { s with intStatus := s.intStatus ||| 0b100 })

/-- R133, R225: while BUSY, a write to CMD or IN_DATA, or to IN_CTRL with bit 0 = 1, sets VIOL and changes nothing else;
writes to CFG, INT_EN and INT_STATUS are taken, and every other write changes nothing. -/
def Obligations.BusyBlockRefusesCommandAndInputWrites : Prop :=
  ∀ (s : State) (a : WordAddr) (w : Word), s.busy = true →
    (a = 1 ∨ a = 6 ∨ (a = 5 ∧ w.getLsbD 0 = true) →
      busStep (.write a w) s = .next { s with intStatus := s.intStatus ||| 0b100 }) ∧
    (a = 4 → busStep (.write a w) s = .next { s with cfgKeytab := w.extractLsb' 0 1 }) ∧
    (a = 8 → busStep (.write a w) s = .next { s with intEn := w.extractLsb' 0 3 }) ∧
    (a = 9 → busStep (.write a w) s = .next { s with intStatus := s.intStatus &&& ~~~(w.extractLsb' 0 3) }) ∧
    (a = 5 → w.getLsbD 0 = false → busStep (.write a w) s = .next s) ∧
    (a ≠ 1 → a ≠ 4 → a ≠ 5 → a ≠ 6 → a ≠ 8 → a ≠ 9 → busStep (.write a w) s = .next s)

/-- R62, R34: a write to a reserved address, a read-only register or a read-only window changes nothing (all word
addresses but those of CMD, CFG, IN_CTRL, IN_DATA, INT_EN, INT_STATUS), and a read of a reserved address returns 0 (in the
model's own field `readData`, log 4) and changes nothing else. -/
def Obligations.ReservedAndReadOnlyLocationsIgnoreWrites : Prop :=
  (∀ (s : State) (a : WordAddr) (w : Word),
    a ≠ 1 → a ≠ 4 → a ≠ 5 → a ≠ 6 → a ≠ 8 → a ≠ 9 → busStep (.write a w) s = .next s) ∧
  ∀ (s : State) (a : WordAddr),
    (11 ≤ a.toNat ∧ a.toNat < 0x40) ∨ (0x50 ≤ a.toNat ∧ a.toNat < 0x1000) ∨
      (0x19C5 ≤ a.toNat ∧ a.toNat < 0x2000) ∨ (0x2FA0 ≤ a.toNat ∧ a.toNat < 0x4000) ∨ 0x5F40 ≤ a.toNat →
    hostRead s a = 0 ∧ busStep (.read a) s = .next { s with readData := 0 }

/-! ### The commands -/

/-- R135: NOP completes at once with no error and changes nothing else; while BUSY it is refused with VIOL. That OP_LAT,
K_LAT, the cursor and the latches, which hold no specified value while idle, stay as they are is log 9. -/
def Obligations.NopCompletesAtOnce : Prop :=
  ∀ s : State,
    (s.busy = false → s.phase = .idle →
      exec .nop s = .next { s with errCode := 0, intStatus := s.intStatus ||| 0b001 }) ∧
    (s.busy = true → exec .nop s = .next { s with intStatus := s.intStatus ||| 0b100 })

/-- R137: CLEAR drops both VALID bits and NCAT and completes at once; no memory changes (log 18), and the HIST, FB and CAT windows
and CAT_SIZE read 0 afterwards. While BUSY it is refused with VIOL. That OP_LAT, K_LAT, the cursor and the latches,
which hold no specified value while idle, stay as they are is log 9. -/
def Obligations.ClearInvalidatesTheResults : Prop :=
  ∀ s : State,
    (s.busy = false → s.phase = .idle → ∃ t, exec .clear s = .next t ∧
      t = { s with
        errCode := 0, fbValid := false, catValid := false, ncat := 0, intStatus := s.intStatus ||| 0b001 } ∧
      hostRead t 10 = 0 ∧ (∀ a : WordAddr, 0x40 ≤ a.toNat → a.toNat < 0x50 → hostRead t a = 0) ∧
      ∀ a : WordAddr, 0x2000 ≤ a.toNat → hostRead t a = 0) ∧
    (s.busy = true → exec .clear s = .next { s with intStatus := s.intStatus ||| 0b100 })

/-- R130, R140, R170: LOAD and UNPACK on a well-formed input go BUSY, unpacking from the first position, with CFG.KEYTAB
latched; both VALID bits fall, everything else stays. -/
def Obligations.LoadAndUnpackStartOnAWellFormedInput : Prop :=
  ∀ s : State, s.busy = false → s.inCount.toNat = 10001 → s.inOvf = false →
    exec .load s = .next { s with
      errCode := 0, fbValid := false, catValid := false, opLat := 1, kLat := s.cfgKeytab, busy := true,
      phase := .unpacking, cursor := some { y := 0, x := 0, i := 0, j := 0 } } ∧
    exec .unpack s = .next { s with
      errCode := 0, fbValid := false, catValid := false, opLat := 2, kLat := s.cfgKeytab, busy := true,
      phase := .unpacking, cursor := some { y := 0, x := 0, i := 0, j := 0 } }

/-- R130, R201: CATALOG over a valid framebuffer goes BUSY, cataloging from the first position, FB_VALID kept. -/
def Obligations.CatalogStartsOnAValidFramebuffer : Prop :=
  ∀ s : State, s.busy = false → s.fbValid = true →
    exec .catalog s = .next { s with
      errCode := 0, catValid := false, opLat := 3, kLat := s.cfgKeytab, busy := true,
      phase := .cataloging, cursor := some { y := 0, x := 0, i := 0, j := 0 } }

/-- R126, R221: LOAD and UNPACK on any other input complete with MALFORMED_INPUT; both VALID bits fall, IMG, FB, HIST, CAT,
IN_COUNT and IN_OVF stay. -/
def Obligations.MalformedInputCompletesWithItsCode : Prop :=
  ∀ s : State, s.busy = false → s.phase = .idle → ¬ (s.inCount.toNat = 10001 ∧ s.inOvf = false) →
    exec .load s = .next { s with
      errCode := 1, fbValid := false, catValid := false, intStatus := s.intStatus ||| 0b011 } ∧
    exec .unpack s = .next { s with
      errCode := 1, fbValid := false, catValid := false, intStatus := s.intStatus ||| 0b011 }

/-- R224: CATALOG with FB_VALID = 0 completes with NO_FRAMEBUFFER and changes no VALID bit and no memory. -/
def Obligations.CatalogWithoutFramebufferCompletesWithItsCode : Prop :=
  ∀ s : State, s.busy = false → s.phase = .idle → s.fbValid = false →
    exec .catalog s = .next { s with errCode := 4, intStatus := s.intStatus ||| 0b011 }

/-- R220, R131, R232: a completion records its code, sets DONE, sets ERR for a code other than 0, and leaves the other
INT_STATUS bits and everything else as it is. -/
def Obligations.CompletionRecordsCodeAndInterrupts : Prop :=
  ∀ (c : ErrCode) (s : State),
    (complete c s) = { s with
      errCode := c.bits, busy := false, phase := .idle, intStatus := (complete c s).intStatus } ∧
    (complete c s).intStatus.getLsbD 0 = true ∧
    (complete c s).intStatus.getLsbD 1 = (s.intStatus.getLsbD 1 || decide (c.bits ≠ 0)) ∧
    (complete c s).intStatus.getLsbD 2 = s.intStatus.getLsbD 2 ∧
    (ErrCode.none.bits = 0 ∧ ErrCode.malformedInput.bits = 1 ∧ ErrCode.illegalCmd.bits = 3 ∧
      ErrCode.noFramebuffer.bits = 4)

/-! ### The input port and the host registers -/

/-- R120: IN_RESET empties the input and clears IN_OVF, or is refused while BUSY; a write to IN_CTRL (word address 5) with
bit 0 = 0 does nothing, also while BUSY. IMG is not changed. -/
def Obligations.InResetEmptiesTheInput : Prop :=
  ∀ s : State,
    (∀ ignored, s.busy = false → exec (.inReset ignored) s = .next { s with inCount := 0, inOvf := false }) ∧
    (∀ ignored, s.busy = true → exec (.inReset ignored) s = .next { s with intStatus := s.intStatus ||| 0b100 }) ∧
    (∀ w : Word, w.getLsbD 0 = false → busStep (.write 5 w) s = .next s)

/-- R122: IN_PUSH stores its byte at IMG[IN_COUNT] and counts it, sets IN_OVF when the input is full, or is refused while
BUSY; once set, IN_OVF stays set over every instruction but IN_RESET and over every engine step. -/
def Obligations.InPushAppendsOrOverflows : Prop :=
  ∀ s : State,
    (∀ byte ignored, s.busy = false → s.inCount.toNat < 10001 →
      exec (.inPush byte ignored) s = .next { s with
        img := imgWrite s.img s.inCount.toNat byte, inCount := s.inCount + 1 }) ∧
    (∀ byte ignored, s.busy = false → 10001 ≤ s.inCount.toNat →
      exec (.inPush byte ignored) s = .next { s with inOvf := true }) ∧
    (∀ byte ignored, s.busy = true →
      exec (.inPush byte ignored) s = .next { s with intStatus := s.intStatus ||| 0b100 }) ∧
    (s.inOvf = true → (engineStep s).inOvf = true ∧
      ∀ i t, exec i s = .next t → (∀ ignored, i ≠ .inReset ignored) → t.inOvf = true)

/-- R122, R35: the byte stored by IN_PUSH reads back at IMG[IN_COUNT], every other byte of IMG reads as before, the count
rises by one without wrapping, and IMG keeps its canonical form. -/
def Obligations.InPushWritesOneByteOfImg : Prop :=
  ∀ (s : State) (byte : Byte) (ignored : BitVec 24),
    Memory.wf s.img → s.busy = false → s.inCount.toNat < 10001 →
    ∃ t, exec (.inPush byte ignored) s = .next t ∧
      imgRead t.img s.inCount.toNat = byte ∧
      (∀ a, a ≠ s.inCount.toNat → imgRead t.img a = imgRead s.img a) ∧
      t.inCount.toNat = s.inCount.toNat + 1 ∧ Memory.wf t.img

/-- R123: CFG_WR sets CFG.KEYTAB and INT_EN_WR sets INT_EN, BUSY or not, and each changes nothing else; as words on the bus,
`wr CFG, v` stores v[0] and `wr INT_EN, v` stores v[2:0]. -/
def Obligations.ConfigurationWritesStoreTheirFields : Prop :=
  ∀ s : State,
    (∀ keytab ignored, exec (.cfgWr keytab ignored) s = .next { s with cfgKeytab := keytab }) ∧
    (∀ doneIe errIe violIe ignored, ∃ en : BitVec 3,
      exec (.intEnWr doneIe errIe violIe ignored) s = .next { s with intEn := en } ∧
      en.extractLsb' 0 1 = doneIe ∧ en.extractLsb' 1 1 = errIe ∧ en.extractLsb' 2 1 = violIe) ∧
    ∀ w : Word,
      busStep (.write 4 w) s = .next { s with cfgKeytab := w.extractLsb' 0 1 } ∧
      busStep (.write 8 w) s = .next { s with intEn := w.extractLsb' 0 3 }

/-- R123, R76, R264: a running engine does not see writes to CFG and INT_EN: its steps commute with them. -/
def Obligations.RunningCommandDoesNotSeeConfigurationWrites : Prop :=
  ∀ (n : Nat) (s : State) (k : BitVec 1) (en : BitVec 3),
    engineRun n { s with cfgKeytab := k, intEn := en } = { engineRun n s with cfgKeytab := k, intEn := en }

/-- R124: INT_ACK clears the INT_STATUS bits written with 1, at any time, and changes nothing else. -/
def Obligations.IntAckClearsTheWrittenBits : Prop :=
  ∀ (s : State) (clr : BitVec 3) (ignored : BitVec 29),
    exec (.intAck clr ignored) s = .next { s with intStatus := s.intStatus &&& ~~~clr }

/-- R231, U10: where a set event and a clear meet one INT_STATUS bit, the set wins; a bit that is not set by an event and
not cleared stays. -/
def Obligations.SetWinsOverClear : Prop :=
  ∀ (old set clr : BitVec 3) (n : Nat), n < 3 →
    (intUpdate old set clr).getLsbD n = (set.getLsbD n || (old.getLsbD n && !clr.getLsbD n))

/-- R31, R227: an INT_STATUS bit that is set stays set over every step that is no reset and no INT_ACK of that bit (the
moves stand in the model's queue, log 1). -/
def Obligations.InterruptBitsStayUntilAcknowledged : Prop :=
  ∀ (s t : State) (n : Nat), step s = .next t → s.intStatus.getLsbD n = true →
    (∀ rest, s.inputs ≠ .reset :: rest) →
    (∀ txn rest clr ignored, s.inputs = .bus txn :: rest → decode txn = .ok (.intAck clr ignored) →
      clr.getLsbD n = false) →
    t.intStatus.getLsbD n = true

/-- R33: the IRQ output. -/
def Obligations.IrqIsTheEnabledPendingBits : Prop :=
  ∀ s : State, irq s =
    ((s.intStatus.getLsbD 0 && s.intEn.getLsbD 0) || (s.intStatus.getLsbD 1 && s.intEn.getLsbD 1) ||
      (s.intStatus.getLsbD 2 && s.intEn.getLsbD 2))

/-! ### Host reads -/

/-- R125, R70: a read answers what its location reads as and changes nothing (the answer stands in the model's own field
`readData`, log 4); `a[1:0]` is not carried (R60). -/
def Obligations.ReadAnswersAndChangesNothing : Prop :=
  ∀ (s : State) (offset : BitVec 17),
    exec (.rd offset) s = .next { s with readData := hostRead s (offset.extractLsb' 2 15) }

/-- R21: ID reads 0x4B4F0007 at all times, and no write reaches it. -/
def Obligations.IdReadsItsConstant : Prop :=
  ∀ s : State, hostRead s 0 = 0x4B4F0007 ∧ ∀ w, busStep (.write 0 w) s = .next s

/-- R22, R25 to R32: what the registers other than ID and STATUS read as. -/
def Obligations.RegistersReadTheirFields : Prop :=
  ∀ s : State,
    hostRead s 1 = 0 ∧ hostRead s 5 = 0 ∧ hostRead s 6 = 0 ∧
    (hostRead s 3).toNat = s.errCode.toNat ∧ (hostRead s 4).toNat = s.cfgKeytab.toNat ∧
    (hostRead s 7).toNat = s.inCount.toNat ∧ (hostRead s 8).toNat = s.intEn.toNat ∧
    (hostRead s 9).toNat = s.intStatus.toNat ∧
    (hostRead s 10).toNat = (if s.catValid then s.ncat.toNat else 0)

/-- R23: the bits of STATUS. -/
def Obligations.StatusReadsItsBits : Prop :=
  ∀ s : State,
    (hostRead s 2).getLsbD 0 = s.busy ∧ (hostRead s 2).getLsbD 1 = s.fbValid ∧
    (hostRead s 2).getLsbD 2 = s.catValid ∧ (hostRead s 2).getLsbD 3 = decide (s.inCount.toNat = 10001) ∧
    (hostRead s 2).getLsbD 4 = s.inOvf ∧ (hostRead s 2).getLsbD 5 = decide (s.errCode ≠ 0) ∧
    ∀ n, 6 ≤ n → (hostRead s 2).getLsbD n = false

/-- R63: byte t of word k of the IMG window, in bits [31-8t : 24-8t]. -/
def Obligations.ImgWindowReadsPushedBytes : Prop :=
  ∀ (s : State) (a : WordAddr) (k t : Nat), k ≤ 2500 → t < 4 → a.toNat = 0x1000 + k →
    (hostRead s a).extractLsb' (24 - 8 * t) 8 =
      if 4 * k + t < s.inCount.toNat ∧ 4 * k + t ≤ 10000 then imgRead s.img (4 * k + t) else 0

/-- R64: the HIST window. -/
def Obligations.HistWindowReadsCountersWhenValid : Prop :=
  ∀ (s : State) (a : WordAddr) (c : Fin 16), a.toNat = 0x40 + c.val →
    hostRead s a = if s.catValid then s.hist[c] else 0

/-- R65: entry 8w+t in bits [31-4t : 28-4t] of word w of the FB window. -/
def Obligations.FbWindowReadsEntriesWhenValid : Prop :=
  ∀ (s : State) (a : WordAddr) (w t : Nat), w < 4000 → t < 8 → a.toNat = 0x2000 + w →
    (hostRead s a).extractLsb' (28 - 4 * t) 4 = if s.fbValid then fbRead s.fb (8 * w + t) else 0

/-- R66, R104: the words of catalog entry e: digit 8q+t of the key in bits [31-4t : 28-4t] of KEYq, COUNT, and three
reserved words that read 0; all read 0 when the entry is not exposed. -/
def Obligations.CatWindowReadsEntriesWhenValid : Prop :=
  ∀ (s : State) (a : WordAddr) (e q : Nat), e < 1000 → q < 8 → a.toNat = 0x4000 + 8 * e + q →
    (s.catValid = true → e < s.ncat.toNat →
      (∀ t, q < 4 → t < 8 → (hostRead s a).extractLsb' (28 - 4 * t) 4 = digitAt (catRead s.cat e).key (8 * q + t)) ∧
      (q = 4 → hostRead s a = (catRead s.cat e).count) ∧
      (5 ≤ q → hostRead s a = 0)) ∧
    (¬ (s.catValid = true ∧ e < s.ncat.toNat) → hostRead s a = 0)

/-- R61, R68: a bridge presents the word address of a platform byte address, dropping `a[1:0]`, within the 128 KiB at the
base, and none outside. -/
def Obligations.BridgeDropsTheByteBits : Prop :=
  ∀ base off : Nat,
    (off < 0x20000 → ∃ a : WordAddr, bridgeAddr base (base + off) = some a ∧ a.toNat = off / 4) ∧
    (0x20000 ≤ off → bridgeAddr base (base + off) = none) ∧ ∀ b, b < base → bridgeAddr base b = none

/-! ### Reset -/

/-- R43: the values immediately after reset. -/
def Obligations.ResetStateHasTheSpecifiedValues : Prop :=
  hostRead State.reset 0 = 0x4B4F0007 ∧
  State.reset.busy = false ∧ State.reset.fbValid = false ∧ State.reset.catValid = false ∧
  State.reset.inOvf = false ∧ inFull State.reset = false ∧ errFlag State.reset = false ∧
  State.reset.errCode = 0 ∧ State.reset.cfgKeytab = 0 ∧ State.reset.inCount = 0 ∧ State.reset.intEn = 0 ∧
  State.reset.intStatus = 0 ∧ irq State.reset = false ∧ State.reset.ncat = 0 ∧ State.reset.phase = .idle

/-- R250, R251: reset gives every specified piece of state its reset value; a running command is abandoned, with no
INT_STATUS bit and no IRQ, and every window word reads 0 afterwards, whatever the memories hold. (The move of the queue
that performs it is the model's, log 1: StepTakesTheNextMoveOrAnEngineStep.) -/
def Obligations.ResetAbandonsAndHidesTheMemories : Prop :=
  ∀ s : State, ∃ t, t = resetBlock s ∧ t.busy = false ∧ t.fbValid = false ∧ t.catValid = false ∧ t.inCount = 0 ∧
    t.inOvf = false ∧ t.errCode = 0 ∧ t.cfgKeytab = 0 ∧ t.intEn = 0 ∧ t.intStatus = 0 ∧ t.ncat = 0 ∧
    t.phase = .idle ∧ irq t = false ∧ ∀ a : WordAddr, 0x40 ≤ a.toNat → hostRead t a = 0

/-! ### The pure functions -/

/-- R160, R161: the code of wide pixel j is bits [7-2j : 6-2j] of the byte, and the four arms of the color multiplexer. -/
def Obligations.CodeIsTheBitPairAndMuxSelectsItsSource : Prop :=
  (∀ (b : Byte) (j : Fin 4), code b j = b.extractLsb' (6 - 2 * j.val) 2) ∧
  ∀ scr col bg : Byte,
    (mux 0 scr col bg).toNat = bg.toNat % 16 ∧ (mux 1 scr col bg).toNat = scr.toNat / 16 ∧
    (mux 2 scr col bg).toNat = scr.toNat % 16 ∧ (mux 3 scr col bg).toNat = col.toNat % 16

/-- R164, R165: the framebuffer address of a position, and that it is a bijection from the positions onto 0..31999. -/
def Obligations.FramebufferAddressIsABijection : Prop :=
  (∀ p, fbAddr p = (p.y.val * 8 + p.i.val) * 160 + (p.x.val * 4 + p.j.val)) ∧
  (∀ p, fbAddr p < 32000) ∧ (∀ p q, fbAddr p = fbAddr q → p = q) ∧ ∀ n, n < 32000 → ∃ p, fbAddr p = n

/-- R191: the two digit tables. -/
def Obligations.DigitTables : Prop :=
  ∀ v : Nibble, digit v 0 = v ∧ (v.toNat ≤ 9 → digit v 1 = v) ∧ (v.toNat = 10 → digit v 1 = 0) ∧
    (11 ≤ v.toNat → (digit v 1).toNat = v.toNat - 1)

/-! ### The engine -/

/-- R163, R164, R167, R168: one step of the unpack phase at position p. It writes the multiplexer's result to the entry
`(y*8+i)*160 + x*4+j` and to no other, and advances the cursor to the next position (y outermost, then x, i, j) or past the
last one; everything but the latches, FB and the cursor stays. That it also loads bg, scr, col and b where their loops
begin is the model's grouping of R168's assignments into engine steps, log 12. -/
def Obligations.UnpackStepWritesOneEntry : Prop :=
  ∀ (s : State) (p : Pos), FrameMem.wf s.fb → s.phase = .unpacking → s.cursor = some p →
    ∃ (fb : FrameMem) (l : Latches),
      engineStep s = { s with fb := fb, latches := l, cursor := nextPos p } ∧
      fbRead fb ((p.y.val * 8 + p.i.val) * 160 + (p.x.val * 4 + p.j.val)) = mux l.code l.scr l.col l.bg ∧
      (∀ n, n ≠ (p.y.val * 8 + p.i.val) * 160 + (p.x.val * 4 + p.j.val) → fbRead fb n = fbRead s.fb n) ∧
      l.code = code l.b p.j ∧
      l.b = (if p.j = 0 then imgRead s.img ((p.y.val * 40 + p.x.val) * 8 + p.i.val) else s.latches.b) ∧
      l.scr = (if p.i = 0 ∧ p.j = 0 then imgRead s.img (8000 + (p.y.val * 40 + p.x.val)) else s.latches.scr) ∧
      l.col = (if p.i = 0 ∧ p.j = 0 then imgRead s.img (9000 + (p.y.val * 40 + p.x.val)) else s.latches.col) ∧
      l.bg = (if p = { y := 0, x := 0, i := 0, j := 0 } then imgRead s.img 10000 else s.latches.bg) ∧
      l.key = s.latches.key ∧
      (∀ q, nextPos p = some q →
        ((q.y.val * 40 + q.x.val) * 8 + q.i.val) * 4 + q.j.val =
          ((p.y.val * 40 + p.x.val) * 8 + p.i.val) * 4 + p.j.val + 1) ∧
      (nextPos p = none ↔ p = { y := 24, x := 39, i := 7, j := 3 })

/-- R191, R193, R196, R197, R198, R200: one step of the catalog phase at position p, whose framebuffer entry is
`(y*8+i)*160 + x*4+j`. It counts the entry in the histogram, puts its digit at position `i*4+j` of the key latch, applies
insert-or-count to the key at the last entry of a cell, and advances the cursor to the next position or past the last one;
every other field and latch stays. That the clearing of HIST and NCAT at the start of the phase is in the step of the first
position, and the insertion in that of a cell's last, is the model's grouping, log 12. -/
def Obligations.CatalogStepCountsItsEntry : Prop :=
  ∀ (s : State) (p : Pos), s.phase = .cataloging → s.cursor = some p →
    ∃ (hist : Vector Word 16) (cat : CatMem) (ncat : BitVec 11) (key : Key) (v : Nibble),
      engineStep s = { s with
        hist := hist, cat := cat, ncat := ncat, latches := { s.latches with key := key }, cursor := nextPos p } ∧
      v = fbRead s.fb ((p.y.val * 8 + p.i.val) * 160 + (p.x.val * 4 + p.j.val)) ∧
      (∀ n, n < 32 →
        digitAt key n = if n = p.i.val * 4 + p.j.val then digit v s.kLat else digitAt s.latches.key n) ∧
      (p ≠ { y := 0, x := 0, i := 0, j := 0 } →
        ∀ c : Fin 16, hist[c] = if c.val = v.toNat then s.hist[c] + 1 else s.hist[c]) ∧
      (p = { y := 0, x := 0, i := 0, j := 0 } →
        ncat = 0 ∧ ∀ c : Fin 16, hist[c] = if c.val = v.toNat then 1 else 0) ∧
      (¬ (p.i = 7 ∧ p.j = 3) → cat = s.cat ∧ (p ≠ { y := 0, x := 0, i := 0, j := 0 } → ncat = s.ncat)) ∧
      (p.i = 7 ∧ p.j = 3 → cat = (insertOrCount key s).cat ∧ ncat = (insertOrCount key s).ncat) ∧
      (∀ q, nextPos p = some q →
        ((q.y.val * 40 + q.x.val) * 8 + q.i.val) * 4 + q.j.val =
          ((p.y.val * 40 + p.x.val) * 8 + p.i.val) * 4 + p.j.val + 1) ∧
      (nextPos p = none ↔ p = { y := 24, x := 39, i := 7, j := 3 })

/-- R198: insert-or-count: an absent key is inserted at NCAT with count 1; a key that an entry holds adds one to that entry's
count; every other entry stays, and so does everything but the catalog. -/
def Obligations.InsertOrCountUpdatesOneEntry : Prop :=
  ∀ (s : State) (key : Key), CatMem.wf s.cat →
    insertOrCount key s = { s with cat := (insertOrCount key s).cat, ncat := (insertOrCount key s).ncat } ∧
    ((∀ e, e < s.ncat.toNat → (catRead s.cat e).key ≠ key) → s.ncat.toNat < 1000 →
      (insertOrCount key s).ncat.toNat = s.ncat.toNat + 1 ∧
      catRead (insertOrCount key s).cat s.ncat.toNat = { key := key, count := 1 } ∧
      ∀ e, e ≠ s.ncat.toNat → catRead (insertOrCount key s).cat e = catRead s.cat e) ∧
    (∀ e, e < s.ncat.toNat → (catRead s.cat e).key = key → (∀ e', e' < e → (catRead s.cat e').key ≠ key) →
      (insertOrCount key s).ncat = s.ncat ∧
      catRead (insertOrCount key s).cat e = { key := key, count := (catRead s.cat e).count + 1 } ∧
      ∀ e', e' ≠ e → catRead (insertOrCount key s).cat e' = catRead s.cat e')

/-- R35 to R38, R71: the engine never writes IMG, writes FB only while unpacking, and HIST, CAT and NCAT only while
cataloging. -/
def Obligations.EngineWritesAMemoryOnlyInItsPhase : Prop :=
  ∀ s : State,
    (engineStep s).img = s.img ∧ (engineStep s).inCount = s.inCount ∧ (engineStep s).inOvf = s.inOvf ∧
    (s.phase ≠ .unpacking → (engineStep s).fb = s.fb) ∧
    (s.phase ≠ .cataloging →
      (engineStep s).hist = s.hist ∧ (engineStep s).cat = s.cat ∧ (engineStep s).ncat = s.ncat)

/-- R35 to R38: no instruction writes FB, HIST or CAT (for CLEAR, whose effect on them U1 leaves open, this is log 18), and
IN_PUSH alone writes IMG, and there only the byte at IN_COUNT, when it is taken. -/
def Obligations.InstructionsWriteNoResultMemory : Prop :=
  ∀ (i : Instr) (s t : State), exec i s = .next t →
    t.fb = s.fb ∧ t.hist = s.hist ∧ t.cat = s.cat ∧
    ∀ a, (∀ byte ignored, i = .inPush byte ignored →
        s.busy = true ∨ 10001 ≤ s.inCount.toNat ∨ a ≠ s.inCount.toNat) →
      imgRead t.img a = imgRead s.img a

/-! ### Invariants -/

/-- The state after reset meets the invariant (its memories are the model's choice, log 6). -/
def Obligations.ResetMeetsTheInvariant : Prop := Inv State.reset

/-- R24, R25, R29, R38, R39: every step keeps the invariant of the block. -/
def Obligations.StepKeepsTheInvariant : Prop :=
  ∀ s t : State, Inv s → step s = .next t → Inv t

/-- R24: the STATUS invariants hold in every reachable state. -/
def Obligations.StatusInvariantsHoldInReachableStates : Prop :=
  ∀ s : State, Reachable s →
    (s.catValid = true → s.fbValid = true) ∧ (s.busy = true → s.catValid = false) ∧
    (s.busy = true → s.opLat = 1 ∨ s.opLat = 2 → s.fbValid = false) ∧
    (s.inOvf = true → s.inCount.toNat = 10001)

/-- R73: between acceptance and completion an engine step changes no word a host can read, and a host transaction changes
none but those of CFG, INT_EN and INT_STATUS (word addresses 4, 8 and 9) and leaves the block BUSY. -/
def Obligations.ReadsDoNotChangeWhileBusy : Prop :=
  ∀ s : State, Inv s → s.busy = true →
    ((engineStep s).busy = true → ∀ a : WordAddr, hostRead (engineStep s) a = hostRead s a) ∧
    ∀ txn t, busStep txn s = .next t → t.busy = true ∧
      ∀ a : WordAddr, a ≠ 4 → a ≠ 8 → a ≠ 9 → hostRead t a = hostRead s a

/-- R226, R271: a command that is BUSY completes after finitely many engine steps, always with code 0, and DONE is set. -/
def Obligations.BusyCommandCompletesWithoutError : Prop :=
  ∀ s : State, Inv s → s.busy = true →
    ∃ n, (engineRun n s).busy = false ∧ (engineRun n s).errCode = 0 ∧
      (engineRun n s).intStatus.getLsbD 0 = true ∧ ∀ m, m < n → (engineRun m s).busy = true

/-! ### What the commands compute -/

/-- R171, R170: UNPACK of a well-formed input, after enough engine steps, leaves FB_VALID set and every
entry of the framebuffer the multiplexer's value for its position: a function of IMG alone. -/
def Obligations.UnpackBuildsTheFramebuffer : Prop :=
  ∀ s : State, Inv s → s.busy = false → s.inCount.toNat = 10001 → s.inOvf = false →
    ∃ s1, exec .unpack s = .next s1 ∧ ∃ N, ∀ n, N ≤ n →
      (engineRun n s1).busy = false ∧ (engineRun n s1).fbValid = true ∧ (engineRun n s1).catValid = false ∧
      (engineRun n s1).errCode = 0 ∧ (engineRun n s1).intStatus = s.intStatus ||| 0b001 ∧
      FrameMem.wf (engineRun n s1).fb ∧
      ∀ p : Pos, fbRead (engineRun n s1).fb ((p.y.val * 8 + p.i.val) * 160 + (p.x.val * 4 + p.j.val)) =
        mux (code (imgRead s.img ((p.y.val * 40 + p.x.val) * 8 + p.i.val)) p.j)
          (imgRead s.img (8000 + (p.y.val * 40 + p.x.val))) (imgRead s.img (9000 + (p.y.val * 40 + p.x.val)))
          (imgRead s.img 10000)

/-- R140, R141: LOAD of a well-formed input leaves both VALID bits set, the framebuffer of R171, a histogram that sums to
32000 and catalog counts that sum to 1000, and the input as it was. -/
def Obligations.LoadBuildsFramebufferHistogramAndCatalog : Prop :=
  ∀ s : State, Inv s → s.busy = false → s.inCount.toNat = 10001 → s.inOvf = false →
    ∃ s1, exec .load s = .next s1 ∧ ∃ N, ∀ n, N ≤ n →
      (engineRun n s1).busy = false ∧ (engineRun n s1).fbValid = true ∧ (engineRun n s1).catValid = true ∧
      (engineRun n s1).errCode = 0 ∧ (engineRun n s1).intStatus = s.intStatus ||| 0b001 ∧
      (engineRun n s1).img = s.img ∧ (engineRun n s1).inCount = s.inCount ∧
      (∀ p : Pos, fbRead (engineRun n s1).fb ((p.y.val * 8 + p.i.val) * 160 + (p.x.val * 4 + p.j.val)) =
        mux (code (imgRead s.img ((p.y.val * 40 + p.x.val) * 8 + p.i.val)) p.j)
          (imgRead s.img (8000 + (p.y.val * 40 + p.x.val))) (imgRead s.img (9000 + (p.y.val * 40 + p.x.val)))
          (imgRead s.img 10000)) ∧
      (∑ c : Fin 16, (engineRun n s1).hist[c].toNat) = 32000 ∧
      (∑ e ∈ Finset.range (engineRun n s1).ncat.toNat, (catRead (engineRun n s1).cat e).count.toNat) = 1000

/-- R203, R196: after CATALOG, HIST[v] is the number of framebuffer entries equal to v, the histogram sums to 32000 and the
counts to 1000. -/
def Obligations.CatalogCountsTheFramebuffer : Prop :=
  ∀ s : State, Inv s → s.busy = false → s.fbValid = true →
    ∃ s1, exec .catalog s = .next s1 ∧ ∃ N, ∀ n, N ≤ n →
      (∀ c : Fin 16, (engineRun n s1).hist[c].toNat =
        ((Finset.range 32000).filter fun m => (fbRead s.fb m).toNat = c.val).card) ∧
      (∑ c : Fin 16, (engineRun n s1).hist[c].toNat) = 32000 ∧
      (∑ e ∈ Finset.range (engineRun n s1).ncat.toNat, (catRead (engineRun n s1).cat e).count.toNat) = 1000

/-- R202: after CATALOG, NCAT is the number of distinct cell keys, the entries hold distinct keys, every cell's key is among
them, and each COUNT is the number of cells with its key; FB and FB_VALID are as before (R201). -/
def Obligations.CatalogHoldsEveryCellKeyOnce : Prop :=
  ∀ s : State, Inv s → s.busy = false → s.fbValid = true →
    ∃ s1, exec .catalog s = .next s1 ∧ ∃ N, ∀ n, N ≤ n →
      (engineRun n s1).busy = false ∧ (engineRun n s1).catValid = true ∧ (engineRun n s1).fbValid = true ∧
      (engineRun n s1).errCode = 0 ∧ (engineRun n s1).fb = s.fb ∧
      1 ≤ (engineRun n s1).ncat.toNat ∧ (engineRun n s1).ncat.toNat ≤ 1000 ∧
      (engineRun n s1).ncat.toNat =
        ((Finset.range 1000).image fun c => keyOfCell s.fb s.cfgKeytab c).card ∧
      (∀ e e', e < (engineRun n s1).ncat.toNat → e' < (engineRun n s1).ncat.toNat →
        (catRead (engineRun n s1).cat e).key = (catRead (engineRun n s1).cat e').key → e = e') ∧
      (∀ c, c < 1000 → ∃ e, e < (engineRun n s1).ncat.toNat ∧
        (catRead (engineRun n s1).cat e).key = keyOfCell s.fb s.cfgKeytab c) ∧
      ∀ e, e < (engineRun n s1).ncat.toNat → (catRead (engineRun n s1).cat e).count.toNat =
        ((Finset.range 1000).filter fun c =>
          keyOfCell s.fb s.cfgKeytab c = (catRead (engineRun n s1).cat e).key).card

/-- R199: after CATALOG the entries stand in the order of the first cell that has their key, CAT[0] holding cell 0's. -/
def Obligations.CatalogEntriesStandInFirstCellOrder : Prop :=
  ∀ s : State, Inv s → s.busy = false → s.fbValid = true →
    ∃ s1, exec .catalog s = .next s1 ∧ ∃ N, ∀ n, N ≤ n →
      (catRead (engineRun n s1).cat 0).key = keyOfCell s.fb s.cfgKeytab 0 ∧
      ∀ e e', e < e' → e' < (engineRun n s1).ncat.toNat →
        ∃ c, c < 1000 ∧ keyOfCell s.fb s.cfgKeytab c = (catRead (engineRun n s1).cat e).key ∧
          ∀ c', c' ≤ c → keyOfCell s.fb s.cfgKeytab c' ≠ (catRead (engineRun n s1).cat e').key

/-- R204: HIST does not depend on the digit table, and NCAT under the reference table is at most NCAT under the canonical
one, for the same framebuffer. -/
def Obligations.HistIgnoresDigitTableAndNcatDoesNotGrow : Prop :=
  ∀ s : State, Inv s → s.busy = false → s.fbValid = true →
    ∃ s0 s1, exec .catalog { s with cfgKeytab := 0 } = .next s0 ∧ exec .catalog { s with cfgKeytab := 1 } = .next s1 ∧
      ∃ N, ∀ n, N ≤ n →
        (engineRun n s0).busy = false ∧ (engineRun n s1).busy = false ∧
        (engineRun n s0).hist = (engineRun n s1).hist ∧
        (engineRun n s1).ncat.toNat ≤ (engineRun n s0).ncat.toNat

/-- R172: UNPACK then CATALOG leaves the framebuffer, histogram, catalog and VALID bits that LOAD leaves, for the same
CFG.KEYTAB at the CATALOG as at the LOAD, whatever it is at the UNPACK; INT_STATUS is the same. -/
def Obligations.UnpackThenCatalogEqualsLoad : Prop :=
  ∀ (s : State) (k' : BitVec 1), Inv s → s.busy = false → s.inCount.toNat = 10001 → s.inOvf = false →
    ∃ N, ∀ n m k, N ≤ n → N ≤ m → N ≤ k →
      ∃ a u c, exec .load s = .next a ∧ exec .unpack { s with cfgKeytab := k' } = .next u ∧
        exec .catalog { engineRun m u with cfgKeytab := s.cfgKeytab } = .next c ∧
        (engineRun n a).busy = false ∧ (engineRun k c).busy = false ∧
        (engineRun n a).fb = (engineRun k c).fb ∧ (engineRun n a).hist = (engineRun k c).hist ∧
        (engineRun n a).ncat = (engineRun k c).ncat ∧
        (∀ e, e < (engineRun n a).ncat.toNat → catRead (engineRun n a).cat e = catRead (engineRun k c).cat e) ∧
        (engineRun n a).fbValid = (engineRun k c).fbValid ∧ (engineRun n a).catValid = (engineRun k c).catValid ∧
        (engineRun n a).intStatus = (engineRun k c).intStatus

/-- R9, R122, R133, with the model's queue (log 1): a push that races with the completion of a LOAD is refused when it
comes before, and taken as an overflow when it comes after; the machine has both runs. -/
def Obligations.PushRacesWithCompletion : Prop :=
  ∀ (s : State) (byte : Word), Inv s → s.phase = .cataloging → s.opLat = 1 → s.cursor = none →
    (∃ t u, step { s with inputs := [.bus (.write 6 byte), .engine 1] } = .next t ∧ step t = .next u ∧
      u.busy = false ∧ u.inOvf = false ∧ u.intStatus = s.intStatus ||| 0b101) ∧
    (∃ t u, step { s with inputs := [.engine 1, .bus (.write 6 byte)] } = .next t ∧ step t = .next u ∧
      u.busy = false ∧ u.inOvf = true ∧ u.intStatus = s.intStatus ||| 0b001 ∧ u.img = s.img)

/-- R193, R194: the key of cell (x, y) under table k: digit `r*4+c` is the table's digit for framebuffer entry
`(y*8+r)*160 + x*4+c`, and stands in bits [31-4t : 28-4t] of KEYq where `r*4+c = 8q+t`; the cell with index `y*40+x` has
this key. -/
def Obligations.CellKeyHoldsItsDigitsInRowMajorOrder : Prop :=
  ∀ (fb : FrameMem) (k : BitVec 1) (y x : Nat),
    (∀ r c, r < 8 → c < 4 →
      digitAt (cellKey fb k y x) (r * 4 + c) = digit (fbRead fb ((y * 8 + r) * 160 + (x * 4 + c))) k) ∧
    (∀ q t r c, q < 4 → t < 8 → c < 4 → r * 4 + c = 8 * q + t →
      (keyWord (cellKey fb k y x) q).extractLsb' (28 - 4 * t) 4 =
        digit (fbRead fb ((y * 8 + r) * 160 + (x * 4 + c))) k) ∧
    (x < 40 → keyOfCell fb k (y * 40 + x) = cellKey fb k y x)
end

