-- ==== Sys2Proof/Laws/Operands.lean ====
section
/-! SUPPORT. The pure functions: the elements of a packed word, the digits of a key, the cursor's order, the addresses. -/

namespace Sys2Proof.Machine

/-! ### Addresses and the cursor -/

theorem cellIndex_lt (p : Pos) : cellIndex p < 1000 := by
  have := p.y.isLt; have := p.x.isLt; simp only [cellIndex]; omega

theorem bitmapAddr_lt (p : Pos) : bitmapAddr p < 8000 := by
  have := cellIndex_lt p; have := p.i.isLt; simp only [bitmapAddr]; omega

theorem fbAddr_lt (p : Pos) : fbAddr p < 32000 := by
  have := p.y.isLt; have := p.x.isLt; have := p.i.isLt; have := p.j.isLt
  simp only [fbAddr, Config.fbW]; omega

theorem digitPos_lt (p : Pos) : digitPos p < 32 := by
  have := p.i.isLt; have := p.j.isLt; simp only [digitPos]; omega

theorem posIndex_lt (p : Pos) : posIndex p < 32000 := by
  have := cellIndex_lt p; have := p.i.isLt; have := p.j.isLt; simp only [posIndex]; omega

theorem Pos_ext {p q : Pos} (hy : p.y.val = q.y.val) (hx : p.x.val = q.x.val) (hi : p.i.val = q.i.val)
    (hj : p.j.val = q.j.val) : p = q := by
  cases p; cases q; simp only [Pos.mk.injEq, Fin.ext_iff] at *; exact ⟨hy, hx, hi, hj⟩

theorem posIndex_inj {p q : Pos} (h : posIndex p = posIndex q) : p = q := by
  have := p.y.isLt; have := p.x.isLt; have := p.i.isLt; have := p.j.isLt
  have := q.y.isLt; have := q.x.isLt; have := q.i.isLt; have := q.j.isLt
  simp only [posIndex, cellIndex] at h
  apply Pos_ext <;> omega

theorem posIndex_firstPos : posIndex firstPos = 0 := rfl

/-- The cursor takes the positions in the order of their index, and ends after the last one (R41, R167). -/
theorem nextPos_cases (p : Pos) :
    (∃ q, nextPos p = some q ∧ posIndex q = posIndex p + 1) ∨ (nextPos p = none ∧ posIndex p = 31999) := by
  have := p.y.isLt; have := p.x.isLt; have := p.i.isLt; have := p.j.isLt
  unfold nextPos
  split
  · exact .inl ⟨_, rfl, by simp only [posIndex, cellIndex]; omega⟩
  · split
    · exact .inl ⟨_, rfl, by simp [posIndex, cellIndex]; omega⟩
    · split
      · exact .inl ⟨_, rfl, by simp [posIndex, cellIndex]; omega⟩
      · split
        · exact .inl ⟨_, rfl, by simp [posIndex, cellIndex]; omega⟩
        · exact .inr ⟨rfl, by simp only [posIndex, cellIndex]; omega⟩

/-- A position follows from its index. -/
theorem posIndex_fields (p : Pos) :
    p.y.val = posIndex p / 1280 ∧ p.x.val = posIndex p / 32 % 40 ∧ p.i.val = posIndex p / 4 % 8 ∧
      p.j.val = posIndex p % 4 ∧ cellIndex p = posIndex p / 32 := by
  have := p.y.isLt; have := p.x.isLt; have := p.i.isLt; have := p.j.isLt
  simp only [posIndex, cellIndex]; omega

/-- Every index below 32000 is a position's. -/
theorem exists_posIndex {n : Nat} (h : n < 32000) : ∃ p : Pos, posIndex p = n := by
  refine ⟨⟨⟨n / 1280, by omega⟩, ⟨n / 32 % 40, by omega⟩, ⟨n / 4 % 8, by omega⟩, ⟨n % 4, by omega⟩⟩, ?_⟩
  simp only [posIndex, cellIndex]; omega

/-! ### Digits of a key -/

theorem getLsbD_digitAt (key : Key) {n b : Nat} (hb : b < 4) :
    (digitAt key n).getLsbD b = key.getLsbD (124 - 4 * n + b) := by
  simp [digitAt, hb]

/-- A digit after a digit is set. -/
theorem digitAt_setDigit (key : Key) {n m : Nat} (v : Nibble) (hn : n < 32) (hm : m < 32) :
    digitAt (setDigit key n v) m = if m = n then v else digitAt key m := by
  apply BitVec.eq_of_getLsbD_eq
  intro b hb
  have h15 : ∀ k, (0xF : Key).getLsbD k = decide (k < 4) := by
    intro k
    have : (0xF : Key) = (BitVec.allOnes 4).setWidth 128 := by decide
    rw [this, BitVec.getLsbD_setWidth, BitVec.getLsbD_allOnes]
    by_cases hk : k < 4
    · simp [hk]; omega
    · simp [hk]
  rw [getLsbD_digitAt _ hb]
  simp only [setDigit, BitVec.getLsbD_or, BitVec.getLsbD_and, BitVec.getLsbD_not, BitVec.getLsbD_shiftLeft,
    BitVec.getLsbD_setWidth, h15]
  have hlt : 124 - 4 * m + b < 128 := by omega
  split
  · next h =>
    subst h
    have h1 : 124 - 4 * m + b - (124 - 4 * m) = b := by omega
    have h2 : ¬ 124 - 4 * m + b < 124 - 4 * m := by omega
    have h3 : b < 128 := by omega
    simp [hlt, h1, hb, h3]
  · next h =>
    rw [getLsbD_digitAt _ hb]
    by_cases h1 : 124 - 4 * m + b < 124 - 4 * n
    · simp [hlt, h1]
    · have h2 : ¬ 124 - 4 * m + b - (124 - 4 * n) < 4 := by omega
      have h3 : v.getLsbD (124 - 4 * m + b - (124 - 4 * n)) = false := BitVec.getLsbD_of_ge _ _ (by omega)
      simp [hlt, h1, h2, h3]

/-- R195: a key is its 32 digits. -/
theorem key_ext {a b : Key} (h : ∀ n, n < 32 → digitAt a n = digitAt b n) : a = b := by
  apply BitVec.eq_of_getLsbD_eq
  intro t ht
  have h1 := congrArg (fun d : Nibble => d.getLsbD (t % 4)) (h (31 - t / 4) (by omega))
  have hb : t % 4 < 4 := Nat.mod_lt _ (by omega)
  simp only [getLsbD_digitAt _ hb] at h1
  have h2 : 124 - 4 * (31 - t / 4) + t % 4 = t := by omega
  rwa [h2] at h1

/-- R104: digit 8q+t of a key stands in bits [31-4t : 28-4t] of its word q. -/
theorem extract_keyWord (key : Key) {q t : Nat} (hq : q < 4) (ht : t < 8) :
    (keyWord key q).extractLsb' (28 - 4 * t) 4 = digitAt key (8 * q + t) := by
  apply BitVec.eq_of_getLsbD_eq
  intro b hb
  have h1 : 28 - 4 * t + b < 32 := by omega
  have h2 : 96 - 32 * q + (28 - 4 * t + b) = 124 - 4 * (8 * q + t) + b := by omega
  simp [keyWord, digitAt, hb, h1, h2]

theorem digitAt_foldl_setDigit (f : Nat → Nibble) (key : Key) (m : Nat) (hm : m ≤ 32) {n : Nat} (hn : n < 32) :
    digitAt ((List.range m).foldl (fun key i => setDigit key i (f i)) key) n
      = if n < m then f n else digitAt key n := by
  induction m with
  | zero => simp
  | succ m ih =>
    rw [List.range_succ, List.foldl_append, List.foldl_cons, List.foldl_nil,
      digitAt_setDigit _ _ (by omega) hn, ih (by omega)]
    by_cases h1 : n = m
    · subst h1; simp
    · have h2 : (n < m + 1) = (n < m) := by simp; omega
      simp [h1, h2]

/-- R193: digit `r*4 + c` of the key of a cell. -/
theorem digitAt_cellKey (fb : FrameMem) (k : BitVec 1) (y x : Nat) {n : Nat} (hn : n < 32) :
    digitAt (cellKey fb k y x) n = digit (fbRead fb ((y * 8 + n / 4) * 160 + (x * 4 + n % 4))) k := by
  have := digitAt_foldl_setDigit (fun n => digit (fbRead fb ((y * 8 + n / 4) * 160 + (x * 4 + n % 4))) k) 0 32
    (Nat.le_refl _) hn
  simpa [cellKey, hn] using this

/-! ### Elements of a word -/

/-- R63: byte `t` of a packed word stands in bits [31-8t : 24-8t]. -/
theorem extract_pack4 (f : Nat → Byte) {t : Nat} (ht : t < 4) : (pack4 f).extractLsb' (24 - 8 * t) 8 = f t := by
  apply BitVec.eq_of_getLsbD_eq
  intro b hb
  match t, ht with
  | 0, _ | 1, _ | 2, _ | 3, _ =>
    simp only [pack4, BitVec.getLsbD_extractLsb', BitVec.getLsbD_append]
    match b, hb with
    | 0, _ | 1, _ | 2, _ | 3, _ | 4, _ | 5, _ | 6, _ | 7, _ => simp

/-- R65: nibble `t` of a packed word stands in bits [31-4t : 28-4t]. -/
theorem extract_pack8 (f : Nat → Nibble) {t : Nat} (ht : t < 8) : (pack8 f).extractLsb' (28 - 4 * t) 4 = f t := by
  apply BitVec.eq_of_getLsbD_eq
  intro b hb
  match t, ht with
  | 0, _ | 1, _ | 2, _ | 3, _ | 4, _ | 5, _ | 6, _ | 7, _ =>
    simp only [pack8, BitVec.getLsbD_extractLsb', BitVec.getLsbD_append]
    match b, hb with
    | 0, _ | 1, _ | 2, _ | 3, _ => simp

end Sys2Proof.Machine
end

