-- ==== Sys2Proof/Laws/Decode.lean ====
section
/-! SUPPORT. The address map and the decoder, by the numbers of R20 and R61, and the decoding of a write by its register. -/

namespace Sys2Proof

/-! ### The address map -/

/-- R20: the register file, and the reserved offsets behind it. -/
theorem locate_lt_64 {a : WordAddr} (h : a.toNat < 0x40) :
    locate a = match regAt a.toNat with | some r => .reg r | none => .reserved :=
  if_pos h

/-- R34: word addresses 11..63 are reserved. -/
theorem regAt_ge {n : Nat} (h : 11 ≤ n) : regAt n = none := by
  unfold regAt; split <;> first | omega | rfl

/-- R64. -/
theorem locate_hist {a : WordAddr} {c : Nat} (hc : c < 16) (h : a.toNat = 0x40 + c) :
    locate a = .hist ⟨c, hc⟩ := by
  have h1 : ¬ a.toNat < 0x40 := by omega
  have h2 : a.toNat < 0x50 := by omega
  have h3 : (a.toNat - 0x40) % 16 = c := by omega
  simp only [locate, h1, h2, if_true, if_false, Fin.ofNat, h3]

/-- R63. -/
theorem locate_img {a : WordAddr} {k : Nat} (hk : k ≤ 2500) (h : a.toNat = 0x1000 + k) : locate a = .img k := by
  have h1 : ¬ a.toNat < 0x40 := by omega
  have h2 : ¬ a.toNat < 0x50 := by omega
  have h3 : ¬ a.toNat < 0x1000 := by omega
  have h4 : a.toNat < 0x19C5 := by omega
  have h5 : a.toNat - 0x1000 = k := by omega
  simp only [locate, h1, h2, h3, h4, h5, if_true, if_false]

/-- R65. -/
theorem locate_fb {a : WordAddr} {w : Nat} (hw : w < 4000) (h : a.toNat = 0x2000 + w) : locate a = .fb w := by
  have h1 : ¬ a.toNat < 0x40 := by omega
  have h2 : ¬ a.toNat < 0x50 := by omega
  have h3 : ¬ a.toNat < 0x1000 := by omega
  have h4 : ¬ a.toNat < 0x19C5 := by omega
  have h5 : ¬ a.toNat < 0x2000 := by omega
  have h6 : a.toNat < 0x2FA0 := by omega
  have h7 : a.toNat - 0x2000 = w := by omega
  simp only [locate, h1, h2, h3, h4, h5, h6, h7, if_true, if_false]

/-- R66. -/
theorem locate_cat {a : WordAddr} {e q : Nat} (he : e < 1000) (hq : q < 8) (h : a.toNat = 0x4000 + 8 * e + q) :
    locate a = .cat e ⟨q, hq⟩ := by
  have h1 : ¬ a.toNat < 0x40 := by omega
  have h2 : ¬ a.toNat < 0x50 := by omega
  have h3 : ¬ a.toNat < 0x1000 := by omega
  have h4 : ¬ a.toNat < 0x19C5 := by omega
  have h5 : ¬ a.toNat < 0x2000 := by omega
  have h6 : ¬ a.toNat < 0x2FA0 := by omega
  have h7 : ¬ a.toNat < 0x4000 := by omega
  have h8 : a.toNat < 0x5F40 := by omega
  have h9 : (a.toNat - 0x4000) / 8 = e := by omega
  have h10 : (a.toNat - 0x4000) % 8 = q := by omega
  simp only [locate, h1, h2, h3, h4, h5, h6, h7, h8, h9, if_true, if_false, Fin.ofNat, h10]

/-- R61: the reserved ranges. -/
theorem locate_reserved {a : WordAddr}
    (h : (11 ≤ a.toNat ∧ a.toNat < 0x40) ∨ (0x50 ≤ a.toNat ∧ a.toNat < 0x1000) ∨
      (0x19C5 ≤ a.toNat ∧ a.toNat < 0x2000) ∨ (0x2FA0 ≤ a.toNat ∧ a.toNat < 0x4000) ∨ 0x5F40 ≤ a.toNat) :
    locate a = .reserved := by
  by_cases h0 : a.toNat < 0x40
  · rw [locate_lt_64 h0, regAt_ge (by omega)]
  · simp only [locate, h0, if_false]
    repeat' split
    all_goals first | rfl | omega

/-! ### Decoding of a write, by register -/

theorem decode_write_cmd (w : Word) : decode (.write cmdAddr w) = decodeCmd w := rfl
theorem decode_write_cfg (w : Word) :
    decode (.write cfgAddr w) = .ok (.cfgWr (w.extractLsb' 0 1) (w.extractLsb' 1 31)) := rfl
theorem decode_write_inCtrl (w : Word) : decode (.write inCtrlAddr w) = decodeInCtrl w := rfl
theorem decode_write_inData (w : Word) :
    decode (.write inDataAddr w) = .ok (.inPush (w.extractLsb' 0 8) (w.extractLsb' 8 24)) := rfl
theorem decode_write_intEn (w : Word) :
    decode (.write intEnAddr w) =
      .ok (.intEnWr (w.extractLsb' 0 1) (w.extractLsb' 1 1) (w.extractLsb' 2 1) (w.extractLsb' 3 29)) := rfl
theorem decode_write_intStatus (w : Word) :
    decode (.write intStatusAddr w) = .ok (.intAck (w.extractLsb' 0 3) (w.extractLsb' 3 29)) := rfl

end Sys2Proof
end

