-- ==== Sys2Proof/Laws/State.lean ====
section
/-! SUPPORT. The field lemmas: for each operation that writes the state outright, one lemma per field, true by definition, so
that no later proof unfolds a record update. -/

namespace Sys2Proof.Machine

/-! ### A refused write (R133) -/

@[simp] theorem refuse_cfgKeytab (s : State) : (refuse s).cfgKeytab = s.cfgKeytab := rfl
@[simp] theorem refuse_intEn (s : State) : (refuse s).intEn = s.intEn := rfl
@[simp] theorem refuse_intStatus (s : State) : (refuse s).intStatus = intUpdate s.intStatus intViol 0#3 := rfl
@[simp] theorem refuse_errCode (s : State) : (refuse s).errCode = s.errCode := rfl
@[simp] theorem refuse_busy (s : State) : (refuse s).busy = s.busy := rfl
@[simp] theorem refuse_fbValid (s : State) : (refuse s).fbValid = s.fbValid := rfl
@[simp] theorem refuse_catValid (s : State) : (refuse s).catValid = s.catValid := rfl
@[simp] theorem refuse_inCount (s : State) : (refuse s).inCount = s.inCount := rfl
@[simp] theorem refuse_inOvf (s : State) : (refuse s).inOvf = s.inOvf := rfl
@[simp] theorem refuse_img (s : State) : (refuse s).img = s.img := rfl
@[simp] theorem refuse_fb (s : State) : (refuse s).fb = s.fb := rfl
@[simp] theorem refuse_hist (s : State) : (refuse s).hist = s.hist := rfl
@[simp] theorem refuse_cat (s : State) : (refuse s).cat = s.cat := rfl
@[simp] theorem refuse_ncat (s : State) : (refuse s).ncat = s.ncat := rfl
@[simp] theorem refuse_phase (s : State) : (refuse s).phase = s.phase := rfl
@[simp] theorem refuse_opLat (s : State) : (refuse s).opLat = s.opLat := rfl
@[simp] theorem refuse_kLat (s : State) : (refuse s).kLat = s.kLat := rfl
@[simp] theorem refuse_cursor (s : State) : (refuse s).cursor = s.cursor := rfl
@[simp] theorem refuse_latches (s : State) : (refuse s).latches = s.latches := rfl
@[simp] theorem refuse_inputs (s : State) : (refuse s).inputs = s.inputs := rfl
@[simp] theorem refuse_readData (s : State) : (refuse s).readData = s.readData := rfl
@[simp] theorem refuse_draws (s : State) : (refuse s).draws = s.draws := rfl

/-! ### Completion (R131) -/

@[simp] theorem complete_cfgKeytab (c : ErrCode) (s : State) : (complete c s).cfgKeytab = s.cfgKeytab := rfl
@[simp] theorem complete_intEn (c : ErrCode) (s : State) : (complete c s).intEn = s.intEn := rfl
@[simp] theorem complete_intStatus (c : ErrCode) (s : State) : (complete c s).intStatus = intUpdate s.intStatus (completionBits c) 0#3 := rfl
@[simp] theorem complete_errCode (c : ErrCode) (s : State) : (complete c s).errCode = c.bits := rfl
@[simp] theorem complete_busy (c : ErrCode) (s : State) : (complete c s).busy = false := rfl
@[simp] theorem complete_fbValid (c : ErrCode) (s : State) : (complete c s).fbValid = s.fbValid := rfl
@[simp] theorem complete_catValid (c : ErrCode) (s : State) : (complete c s).catValid = s.catValid := rfl
@[simp] theorem complete_inCount (c : ErrCode) (s : State) : (complete c s).inCount = s.inCount := rfl
@[simp] theorem complete_inOvf (c : ErrCode) (s : State) : (complete c s).inOvf = s.inOvf := rfl
@[simp] theorem complete_img (c : ErrCode) (s : State) : (complete c s).img = s.img := rfl
@[simp] theorem complete_fb (c : ErrCode) (s : State) : (complete c s).fb = s.fb := rfl
@[simp] theorem complete_hist (c : ErrCode) (s : State) : (complete c s).hist = s.hist := rfl
@[simp] theorem complete_cat (c : ErrCode) (s : State) : (complete c s).cat = s.cat := rfl
@[simp] theorem complete_ncat (c : ErrCode) (s : State) : (complete c s).ncat = s.ncat := rfl
@[simp] theorem complete_phase (c : ErrCode) (s : State) : (complete c s).phase = .idle := rfl
@[simp] theorem complete_opLat (c : ErrCode) (s : State) : (complete c s).opLat = s.opLat := rfl
@[simp] theorem complete_kLat (c : ErrCode) (s : State) : (complete c s).kLat = s.kLat := rfl
@[simp] theorem complete_cursor (c : ErrCode) (s : State) : (complete c s).cursor = s.cursor := rfl
@[simp] theorem complete_latches (c : ErrCode) (s : State) : (complete c s).latches = s.latches := rfl
@[simp] theorem complete_inputs (c : ErrCode) (s : State) : (complete c s).inputs = s.inputs := rfl
@[simp] theorem complete_readData (c : ErrCode) (s : State) : (complete c s).readData = s.readData := rfl
@[simp] theorem complete_draws (c : ErrCode) (s : State) : (complete c s).draws = s.draws := rfl

/-! ### The unspecified values of an idle engine (U2) -/

@[simp] theorem drawIdle_cfgKeytab (s : State) : (drawIdle s).cfgKeytab = s.cfgKeytab := rfl
@[simp] theorem drawIdle_intEn (s : State) : (drawIdle s).intEn = s.intEn := rfl
@[simp] theorem drawIdle_intStatus (s : State) : (drawIdle s).intStatus = s.intStatus := rfl
@[simp] theorem drawIdle_errCode (s : State) : (drawIdle s).errCode = s.errCode := rfl
@[simp] theorem drawIdle_busy (s : State) : (drawIdle s).busy = s.busy := rfl
@[simp] theorem drawIdle_fbValid (s : State) : (drawIdle s).fbValid = s.fbValid := rfl
@[simp] theorem drawIdle_catValid (s : State) : (drawIdle s).catValid = s.catValid := rfl
@[simp] theorem drawIdle_inCount (s : State) : (drawIdle s).inCount = s.inCount := rfl
@[simp] theorem drawIdle_inOvf (s : State) : (drawIdle s).inOvf = s.inOvf := rfl
@[simp] theorem drawIdle_img (s : State) : (drawIdle s).img = s.img := rfl
@[simp] theorem drawIdle_fb (s : State) : (drawIdle s).fb = s.fb := rfl
@[simp] theorem drawIdle_hist (s : State) : (drawIdle s).hist = s.hist := rfl
@[simp] theorem drawIdle_cat (s : State) : (drawIdle s).cat = s.cat := rfl
@[simp] theorem drawIdle_ncat (s : State) : (drawIdle s).ncat = s.ncat := rfl
@[simp] theorem drawIdle_phase (s : State) : (drawIdle s).phase = s.phase := rfl
@[simp] theorem drawIdle_opLat (s : State) : (drawIdle s).opLat = Config.freeOpLat s.draws := rfl
@[simp] theorem drawIdle_kLat (s : State) : (drawIdle s).kLat = Config.freeKLat s.draws := rfl
@[simp] theorem drawIdle_cursor (s : State) : (drawIdle s).cursor = Config.freeCursor s.draws := rfl
@[simp] theorem drawIdle_latches (s : State) : (drawIdle s).latches = Config.freeLatches s.draws := rfl
@[simp] theorem drawIdle_inputs (s : State) : (drawIdle s).inputs = s.inputs := rfl
@[simp] theorem drawIdle_readData (s : State) : (drawIdle s).readData = s.readData := rfl
@[simp] theorem drawIdle_draws (s : State) : (drawIdle s).draws = s.draws + 1 := rfl

/-! ### The start of a phase at acceptance (R130) -/

@[simp] theorem start_cfgKeytab (op : BitVec 4) (ph : Phase) (s : State) : (start op ph s).cfgKeytab = s.cfgKeytab := rfl
@[simp] theorem start_intEn (op : BitVec 4) (ph : Phase) (s : State) : (start op ph s).intEn = s.intEn := rfl
@[simp] theorem start_intStatus (op : BitVec 4) (ph : Phase) (s : State) : (start op ph s).intStatus = s.intStatus := rfl
@[simp] theorem start_errCode (op : BitVec 4) (ph : Phase) (s : State) : (start op ph s).errCode = s.errCode := rfl
@[simp] theorem start_busy (op : BitVec 4) (ph : Phase) (s : State) : (start op ph s).busy = true := rfl
@[simp] theorem start_fbValid (op : BitVec 4) (ph : Phase) (s : State) : (start op ph s).fbValid = s.fbValid := rfl
@[simp] theorem start_catValid (op : BitVec 4) (ph : Phase) (s : State) : (start op ph s).catValid = s.catValid := rfl
@[simp] theorem start_inCount (op : BitVec 4) (ph : Phase) (s : State) : (start op ph s).inCount = s.inCount := rfl
@[simp] theorem start_inOvf (op : BitVec 4) (ph : Phase) (s : State) : (start op ph s).inOvf = s.inOvf := rfl
@[simp] theorem start_img (op : BitVec 4) (ph : Phase) (s : State) : (start op ph s).img = s.img := rfl
@[simp] theorem start_fb (op : BitVec 4) (ph : Phase) (s : State) : (start op ph s).fb = s.fb := rfl
@[simp] theorem start_hist (op : BitVec 4) (ph : Phase) (s : State) : (start op ph s).hist = s.hist := rfl
@[simp] theorem start_cat (op : BitVec 4) (ph : Phase) (s : State) : (start op ph s).cat = s.cat := rfl
@[simp] theorem start_ncat (op : BitVec 4) (ph : Phase) (s : State) : (start op ph s).ncat = s.ncat := rfl
@[simp] theorem start_phase (op : BitVec 4) (ph : Phase) (s : State) : (start op ph s).phase = ph := rfl
@[simp] theorem start_opLat (op : BitVec 4) (ph : Phase) (s : State) : (start op ph s).opLat = op := rfl
@[simp] theorem start_kLat (op : BitVec 4) (ph : Phase) (s : State) : (start op ph s).kLat = s.cfgKeytab := rfl
@[simp] theorem start_cursor (op : BitVec 4) (ph : Phase) (s : State) : (start op ph s).cursor = some firstPos := rfl
@[simp] theorem start_latches (op : BitVec 4) (ph : Phase) (s : State) : (start op ph s).latches = s.latches := rfl
@[simp] theorem start_inputs (op : BitVec 4) (ph : Phase) (s : State) : (start op ph s).inputs = s.inputs := rfl
@[simp] theorem start_readData (op : BitVec 4) (ph : Phase) (s : State) : (start op ph s).readData = s.readData := rfl
@[simp] theorem start_draws (op : BitVec 4) (ph : Phase) (s : State) : (start op ph s).draws = s.draws := rfl

/-! ### The start of the catalog phase (R197) -/

@[simp] theorem clearCounts_cfgKeytab (s : State) : (clearCounts s).cfgKeytab = s.cfgKeytab := rfl
@[simp] theorem clearCounts_intEn (s : State) : (clearCounts s).intEn = s.intEn := rfl
@[simp] theorem clearCounts_intStatus (s : State) : (clearCounts s).intStatus = s.intStatus := rfl
@[simp] theorem clearCounts_errCode (s : State) : (clearCounts s).errCode = s.errCode := rfl
@[simp] theorem clearCounts_busy (s : State) : (clearCounts s).busy = s.busy := rfl
@[simp] theorem clearCounts_fbValid (s : State) : (clearCounts s).fbValid = s.fbValid := rfl
@[simp] theorem clearCounts_catValid (s : State) : (clearCounts s).catValid = s.catValid := rfl
@[simp] theorem clearCounts_inCount (s : State) : (clearCounts s).inCount = s.inCount := rfl
@[simp] theorem clearCounts_inOvf (s : State) : (clearCounts s).inOvf = s.inOvf := rfl
@[simp] theorem clearCounts_img (s : State) : (clearCounts s).img = s.img := rfl
@[simp] theorem clearCounts_fb (s : State) : (clearCounts s).fb = s.fb := rfl
@[simp] theorem clearCounts_hist (s : State) : (clearCounts s).hist = Vector.replicate 16 0 := rfl
@[simp] theorem clearCounts_cat (s : State) : (clearCounts s).cat = s.cat := rfl
@[simp] theorem clearCounts_ncat (s : State) : (clearCounts s).ncat = 0 := rfl
@[simp] theorem clearCounts_phase (s : State) : (clearCounts s).phase = s.phase := rfl
@[simp] theorem clearCounts_opLat (s : State) : (clearCounts s).opLat = s.opLat := rfl
@[simp] theorem clearCounts_kLat (s : State) : (clearCounts s).kLat = s.kLat := rfl
@[simp] theorem clearCounts_cursor (s : State) : (clearCounts s).cursor = s.cursor := rfl
@[simp] theorem clearCounts_latches (s : State) : (clearCounts s).latches = s.latches := rfl
@[simp] theorem clearCounts_inputs (s : State) : (clearCounts s).inputs = s.inputs := rfl
@[simp] theorem clearCounts_readData (s : State) : (clearCounts s).readData = s.readData := rfl
@[simp] theorem clearCounts_draws (s : State) : (clearCounts s).draws = s.draws := rfl

/-! ### The statements of the two phases (R168, R196, R200) -/

@[simp] theorem unpackStatement_cfgKeytab (p : Pos) (s : State) : (unpackStatement p s).cfgKeytab = s.cfgKeytab := rfl
@[simp] theorem unpackStatement_intEn (p : Pos) (s : State) : (unpackStatement p s).intEn = s.intEn := rfl
@[simp] theorem unpackStatement_intStatus (p : Pos) (s : State) : (unpackStatement p s).intStatus = s.intStatus := rfl
@[simp] theorem unpackStatement_errCode (p : Pos) (s : State) : (unpackStatement p s).errCode = s.errCode := rfl
@[simp] theorem unpackStatement_busy (p : Pos) (s : State) : (unpackStatement p s).busy = s.busy := rfl
@[simp] theorem unpackStatement_fbValid (p : Pos) (s : State) : (unpackStatement p s).fbValid = s.fbValid := rfl
@[simp] theorem unpackStatement_catValid (p : Pos) (s : State) : (unpackStatement p s).catValid = s.catValid := rfl
@[simp] theorem unpackStatement_inCount (p : Pos) (s : State) : (unpackStatement p s).inCount = s.inCount := rfl
@[simp] theorem unpackStatement_inOvf (p : Pos) (s : State) : (unpackStatement p s).inOvf = s.inOvf := rfl
@[simp] theorem unpackStatement_img (p : Pos) (s : State) : (unpackStatement p s).img = s.img := rfl
@[simp] theorem unpackStatement_fb (p : Pos) (s : State) : (unpackStatement p s).fb = fbWrite s.fb (fbAddr p) (mux (unpackLatches s.img s.latches p).code
      (unpackLatches s.img s.latches p).scr (unpackLatches s.img s.latches p).col
      (unpackLatches s.img s.latches p).bg) := rfl
@[simp] theorem unpackStatement_hist (p : Pos) (s : State) : (unpackStatement p s).hist = s.hist := rfl
@[simp] theorem unpackStatement_cat (p : Pos) (s : State) : (unpackStatement p s).cat = s.cat := rfl
@[simp] theorem unpackStatement_ncat (p : Pos) (s : State) : (unpackStatement p s).ncat = s.ncat := rfl
@[simp] theorem unpackStatement_phase (p : Pos) (s : State) : (unpackStatement p s).phase = s.phase := rfl
@[simp] theorem unpackStatement_opLat (p : Pos) (s : State) : (unpackStatement p s).opLat = s.opLat := rfl
@[simp] theorem unpackStatement_kLat (p : Pos) (s : State) : (unpackStatement p s).kLat = s.kLat := rfl
@[simp] theorem unpackStatement_cursor (p : Pos) (s : State) : (unpackStatement p s).cursor = nextPos p := rfl
@[simp] theorem unpackStatement_latches (p : Pos) (s : State) : (unpackStatement p s).latches = unpackLatches s.img s.latches p := rfl
@[simp] theorem unpackStatement_inputs (p : Pos) (s : State) : (unpackStatement p s).inputs = s.inputs := rfl
@[simp] theorem unpackStatement_readData (p : Pos) (s : State) : (unpackStatement p s).readData = s.readData := rfl
@[simp] theorem unpackStatement_draws (p : Pos) (s : State) : (unpackStatement p s).draws = s.draws := rfl

@[simp] theorem scanEntry_cfgKeytab (p : Pos) (s : State) : (scanEntry p s).cfgKeytab = s.cfgKeytab := rfl
@[simp] theorem scanEntry_intEn (p : Pos) (s : State) : (scanEntry p s).intEn = s.intEn := rfl
@[simp] theorem scanEntry_intStatus (p : Pos) (s : State) : (scanEntry p s).intStatus = s.intStatus := rfl
@[simp] theorem scanEntry_errCode (p : Pos) (s : State) : (scanEntry p s).errCode = s.errCode := rfl
@[simp] theorem scanEntry_busy (p : Pos) (s : State) : (scanEntry p s).busy = s.busy := rfl
@[simp] theorem scanEntry_fbValid (p : Pos) (s : State) : (scanEntry p s).fbValid = s.fbValid := rfl
@[simp] theorem scanEntry_catValid (p : Pos) (s : State) : (scanEntry p s).catValid = s.catValid := rfl
@[simp] theorem scanEntry_inCount (p : Pos) (s : State) : (scanEntry p s).inCount = s.inCount := rfl
@[simp] theorem scanEntry_inOvf (p : Pos) (s : State) : (scanEntry p s).inOvf = s.inOvf := rfl
@[simp] theorem scanEntry_img (p : Pos) (s : State) : (scanEntry p s).img = s.img := rfl
@[simp] theorem scanEntry_fb (p : Pos) (s : State) : (scanEntry p s).fb = s.fb := rfl
@[simp] theorem scanEntry_hist (p : Pos) (s : State) : (scanEntry p s).hist = histIncrement s.hist (fbRead s.fb (fbAddr p)) := rfl
@[simp] theorem scanEntry_cat (p : Pos) (s : State) : (scanEntry p s).cat = s.cat := rfl
@[simp] theorem scanEntry_ncat (p : Pos) (s : State) : (scanEntry p s).ncat = s.ncat := rfl
@[simp] theorem scanEntry_phase (p : Pos) (s : State) : (scanEntry p s).phase = s.phase := rfl
@[simp] theorem scanEntry_opLat (p : Pos) (s : State) : (scanEntry p s).opLat = s.opLat := rfl
@[simp] theorem scanEntry_kLat (p : Pos) (s : State) : (scanEntry p s).kLat = s.kLat := rfl
@[simp] theorem scanEntry_cursor (p : Pos) (s : State) : (scanEntry p s).cursor = s.cursor := rfl
@[simp] theorem scanEntry_latches (p : Pos) (s : State) : (scanEntry p s).latches = 
      { s.latches with key := setDigit s.latches.key (digitPos p) (digit (fbRead s.fb (fbAddr p)) s.kLat) } := rfl
@[simp] theorem scanEntry_inputs (p : Pos) (s : State) : (scanEntry p s).inputs = s.inputs := rfl
@[simp] theorem scanEntry_readData (p : Pos) (s : State) : (scanEntry p s).readData = s.readData := rfl
@[simp] theorem scanEntry_draws (p : Pos) (s : State) : (scanEntry p s).draws = s.draws := rfl

/-! ### Reset (R250) -/

@[simp] theorem resetBlock_cfgKeytab (s : State) : (resetBlock s).cfgKeytab = 0 := rfl
@[simp] theorem resetBlock_intEn (s : State) : (resetBlock s).intEn = 0 := rfl
@[simp] theorem resetBlock_intStatus (s : State) : (resetBlock s).intStatus = 0 := rfl
@[simp] theorem resetBlock_errCode (s : State) : (resetBlock s).errCode = 0 := rfl
@[simp] theorem resetBlock_busy (s : State) : (resetBlock s).busy = false := rfl
@[simp] theorem resetBlock_fbValid (s : State) : (resetBlock s).fbValid = false := rfl
@[simp] theorem resetBlock_catValid (s : State) : (resetBlock s).catValid = false := rfl
@[simp] theorem resetBlock_inCount (s : State) : (resetBlock s).inCount = 0 := rfl
@[simp] theorem resetBlock_inOvf (s : State) : (resetBlock s).inOvf = false := rfl
@[simp] theorem resetBlock_img (s : State) : (resetBlock s).img = storeOf Config.imgLen blankByte (Config.freeImg s.draws) := rfl
@[simp] theorem resetBlock_fb (s : State) : (resetBlock s).fb = storeOf Config.fbN blankNibble (Config.freeFb s.draws) := rfl
@[simp] theorem resetBlock_hist (s : State) : (resetBlock s).hist = Config.freeHist s.draws := rfl
@[simp] theorem resetBlock_cat (s : State) : (resetBlock s).cat = storeOf Config.catMax blankEntry (Config.freeCat s.draws) := rfl
@[simp] theorem resetBlock_ncat (s : State) : (resetBlock s).ncat = 0 := rfl
@[simp] theorem resetBlock_phase (s : State) : (resetBlock s).phase = .idle := rfl
@[simp] theorem resetBlock_opLat (s : State) : (resetBlock s).opLat = Config.freeOpLat s.draws := rfl
@[simp] theorem resetBlock_kLat (s : State) : (resetBlock s).kLat = Config.freeKLat s.draws := rfl
@[simp] theorem resetBlock_cursor (s : State) : (resetBlock s).cursor = Config.freeCursor s.draws := rfl
@[simp] theorem resetBlock_latches (s : State) : (resetBlock s).latches = Config.freeLatches s.draws := rfl
@[simp] theorem resetBlock_inputs (s : State) : (resetBlock s).inputs = s.inputs := rfl
@[simp] theorem resetBlock_readData (s : State) : (resetBlock s).readData = s.readData := rfl
@[simp] theorem resetBlock_draws (s : State) : (resetBlock s).draws = s.draws + 1 := rfl

/-! ### Insert-or-count (R198): what it leaves alone -/

@[simp] theorem insertOrCount_cfgKeytab (key : Key) (s : State) : (insertOrCount key s).cfgKeytab = s.cfgKeytab := by
  unfold insertOrCount; split <;> rfl
@[simp] theorem insertOrCount_intEn (key : Key) (s : State) : (insertOrCount key s).intEn = s.intEn := by
  unfold insertOrCount; split <;> rfl
@[simp] theorem insertOrCount_intStatus (key : Key) (s : State) : (insertOrCount key s).intStatus = s.intStatus := by
  unfold insertOrCount; split <;> rfl
@[simp] theorem insertOrCount_errCode (key : Key) (s : State) : (insertOrCount key s).errCode = s.errCode := by
  unfold insertOrCount; split <;> rfl
@[simp] theorem insertOrCount_busy (key : Key) (s : State) : (insertOrCount key s).busy = s.busy := by
  unfold insertOrCount; split <;> rfl
@[simp] theorem insertOrCount_fbValid (key : Key) (s : State) : (insertOrCount key s).fbValid = s.fbValid := by
  unfold insertOrCount; split <;> rfl
@[simp] theorem insertOrCount_catValid (key : Key) (s : State) : (insertOrCount key s).catValid = s.catValid := by
  unfold insertOrCount; split <;> rfl
@[simp] theorem insertOrCount_inCount (key : Key) (s : State) : (insertOrCount key s).inCount = s.inCount := by
  unfold insertOrCount; split <;> rfl
@[simp] theorem insertOrCount_inOvf (key : Key) (s : State) : (insertOrCount key s).inOvf = s.inOvf := by
  unfold insertOrCount; split <;> rfl
@[simp] theorem insertOrCount_img (key : Key) (s : State) : (insertOrCount key s).img = s.img := by
  unfold insertOrCount; split <;> rfl
@[simp] theorem insertOrCount_fb (key : Key) (s : State) : (insertOrCount key s).fb = s.fb := by
  unfold insertOrCount; split <;> rfl
@[simp] theorem insertOrCount_hist (key : Key) (s : State) : (insertOrCount key s).hist = s.hist := by
  unfold insertOrCount; split <;> rfl
@[simp] theorem insertOrCount_phase (key : Key) (s : State) : (insertOrCount key s).phase = s.phase := by
  unfold insertOrCount; split <;> rfl
@[simp] theorem insertOrCount_opLat (key : Key) (s : State) : (insertOrCount key s).opLat = s.opLat := by
  unfold insertOrCount; split <;> rfl
@[simp] theorem insertOrCount_kLat (key : Key) (s : State) : (insertOrCount key s).kLat = s.kLat := by
  unfold insertOrCount; split <;> rfl
@[simp] theorem insertOrCount_cursor (key : Key) (s : State) : (insertOrCount key s).cursor = s.cursor := by
  unfold insertOrCount; split <;> rfl
@[simp] theorem insertOrCount_latches (key : Key) (s : State) : (insertOrCount key s).latches = s.latches := by
  unfold insertOrCount; split <;> rfl
@[simp] theorem insertOrCount_inputs (key : Key) (s : State) : (insertOrCount key s).inputs = s.inputs := by
  unfold insertOrCount; split <;> rfl
@[simp] theorem insertOrCount_readData (key : Key) (s : State) : (insertOrCount key s).readData = s.readData := by
  unfold insertOrCount; split <;> rfl
@[simp] theorem insertOrCount_draws (key : Key) (s : State) : (insertOrCount key s).draws = s.draws := by
  unfold insertOrCount; split <;> rfl

end Sys2Proof.Machine
end

