-- ==== Sys2Proof/Laws/Store.lean ====
section
/-! SUPPORT. Stores: a read after a write, the canonical form, and equality of stores from equality of their reads. -/

namespace Sys2Proof.Machine

section
variable {α : Type} {n : Nat} {d : α}

theorem storeRead_of_lt {m : Store α} {a : Nat} (h : ∀ p ∈ m, a < p.1) : storeRead d m a = d := by
  induction m with
  | nil => rfl
  | cons p m ih =>
    have hp := h p (by simp)
    simp only [storeRead, if_neg (Nat.ne_of_gt hp)]
    exact ih fun q hq => h q (by simp [hq])

theorem storeRead_storeWrite_ne [DecidableEq α] {m : Store α} {a b : Nat} {v : α} (hab : b ≠ a) :
    storeRead d (storeWrite d m a v) b = storeRead d m b := by
  induction m with
  | nil => simp only [storeWrite]; split <;> simp [storeRead, Ne.symm hab]
  | cons p m ih =>
    obtain ⟨k, u⟩ := p
    simp only [storeWrite]
    split
    · simp [storeRead, ih]
    · split
      · next hk => subst hk; split <;> simp [storeRead, Ne.symm hab]
      · split <;> simp [storeRead, Ne.symm hab]

theorem storeRead_storeWrite_eq [DecidableEq α] {m : Store α} {a : Nat} {v : α}
    (hm : m.Pairwise fun p q => p.1 < q.1) : storeRead d (storeWrite d m a v) a = v := by
  induction m with
  | nil => simp only [storeWrite]; split <;> simp_all [storeRead]
  | cons p m ih =>
    obtain ⟨k, u⟩ := p
    rw [List.pairwise_cons] at hm
    simp only [storeWrite]
    split
    · next hk => simp [storeRead, Nat.ne_of_lt hk, ih hm.2]
    · next hk =>
      split
      · next hk' =>
        subst hk'
        split
        · next hv => rw [hv]; exact storeRead_of_lt hm.1
        · simp [storeRead]
      · next hk' =>
        have hlt : a < k := by omega
        split
        · next hv =>
          rw [hv]
          exact storeRead_of_lt fun q hq => by
            rcases List.mem_cons.1 hq with rfl | hq
            · exact hlt
            · exact Nat.lt_trans hlt (hm.1 q hq)
        · simp [storeRead]

/-- A read after a write, at any address, of a store in canonical form. -/
theorem storeRead_storeWrite [DecidableEq α] {m : Store α} {a b : Nat} {v : α} (hm : storeWf n d m) :
    storeRead d (storeWrite d m a v) b = if b = a then v else storeRead d m b := by
  split
  · next h => rw [h]; exact storeRead_storeWrite_eq hm.1
  · next h => exact storeRead_storeWrite_ne h

theorem mem_storeWrite [DecidableEq α] {m : Store α} {a : Nat} {v : α} {p : Nat × α} (h : p ∈ storeWrite d m a v) :
    p ∈ m ∨ (p = (a, v) ∧ v ≠ d) := by
  induction m with
  | nil => simp only [storeWrite] at h; split at h <;> simp_all
  | cons q m ih =>
    obtain ⟨k, u⟩ := q
    simp only [storeWrite] at h
    split at h
    · rcases List.mem_cons.1 h with h | h
      · simp [h]
      · rcases ih h with h | h <;> simp [h]
    · split at h
      · split at h
        · simp [h]
        · rcases List.mem_cons.1 h with h | h <;> simp_all
      · split at h
        · exact .inl h
        · rcases List.mem_cons.1 h with h | h <;> simp_all

/-- A write keeps the canonical form. -/
theorem storeWrite_wf [DecidableEq α] {m : Store α} {a : Nat} {v : α} (hm : storeWf n d m) (ha : a < n) :
    storeWf n d (storeWrite d m a v) := by
  refine ⟨?_, fun p hp => ?_⟩
  · have h := hm.1
    clear hm
    induction m with
    | nil => simp only [storeWrite]; split <;> simp
    | cons q m ih =>
      obtain ⟨k, u⟩ := q
      rw [List.pairwise_cons] at h
      simp only [storeWrite]
      split
      · next hk =>
        refine List.pairwise_cons.2 ⟨fun p hp => ?_, ih h.2⟩
        rcases mem_storeWrite hp with hp | ⟨rfl, -⟩
        · exact h.1 p hp
        · exact hk
      · next hk =>
        split
        · next hk' =>
          subst hk'
          split
          · exact h.2
          · exact List.pairwise_cons.2 h
        · next hk' =>
          split
          · exact List.pairwise_cons.2 h
          · refine List.pairwise_cons.2 ⟨fun p hp => ?_, List.pairwise_cons.2 h⟩
            have hlt : a < k := by omega
            rcases List.mem_cons.1 hp with rfl | hp
            · exact hlt
            · exact Nat.lt_trans hlt (h.1 p hp)
  · rcases mem_storeWrite hp with hp | ⟨rfl, hv⟩
    · exact hm.2 p hp
    · exact ⟨ha, hv⟩

theorem storeWf_nil : storeWf n d ([] : Store α) := by simp [storeWf]

/-- Any contents give a store in canonical form. -/
theorem storeOf_wf [DecidableEq α] (l : List (Nat × α)) : storeWf n d (storeOf n d l) := by
  suffices h : ∀ m : Store α, storeWf n d m →
      storeWf n d (l.foldl (fun m p => if p.1 < n then storeWrite d m p.1 p.2 else m) m) from h [] storeWf_nil
  induction l with
  | nil => exact fun m hm => hm
  | cons p l ih =>
    intro m hm
    refine ih _ ?_
    dsimp only
    split
    · next h => exact storeWrite_wf hm h
    · exact hm

/-- An address outside the store's range reads `d`. -/
theorem storeRead_of_ge {m : Store α} (hm : storeWf n d m) {a : Nat} (ha : n ≤ a) : storeRead d m a = d := by
  induction m with
  | nil => rfl
  | cons p m ih =>
    have h1 := (hm.2 p (by simp)).1
    have h2 : p.1 ≠ a := by omega
    simp only [storeRead, if_neg h2]
    exact ih ⟨(List.pairwise_cons.1 hm.1).2, fun q hq => hm.2 q (by simp [hq])⟩

/-- Two stores in canonical form with equal reads are the same store. -/
theorem store_ext {m m' : Store α} (hm : storeWf n d m) (hm' : storeWf n d m')
    (h : ∀ a, storeRead d m a = storeRead d m' a) : m = m' := by
  induction m generalizing m' with
  | nil =>
    cases m' with
    | nil => rfl
    | cons q m' =>
      have := h q.1
      simp only [storeRead, if_true] at this
      exact absurd this.symm (hm'.2 q (by simp)).2
  | cons p m ih =>
    have hp := List.pairwise_cons.1 hm.1
    have tailWf : storeWf n d m := ⟨hp.2, fun r hr => hm.2 r (by simp [hr])⟩
    cases m' with
    | nil =>
      have := h p.1
      simp only [storeRead, if_true] at this
      exact absurd this (hm.2 p (by simp)).2
    | cons q m' =>
      have hq := List.pairwise_cons.1 hm'.1
      have tailWf' : storeWf n d m' := ⟨hq.2, fun r hr => hm'.2 r (by simp [hr])⟩
      have heq : p.1 = q.1 := by
        rcases Nat.lt_trichotomy p.1 q.1 with hlt | heq | hgt
        · have := h p.1
          rw [storeRead_of_lt (m := q :: m') (a := p.1)] at this
          · simp only [storeRead, if_true] at this
            exact absurd this (hm.2 p (by simp)).2
          · intro r hr
            rcases List.mem_cons.1 hr with rfl | hr
            · exact hlt
            · exact Nat.lt_trans hlt (hq.1 r hr)
        · exact heq
        · have := h q.1
          rw [storeRead_of_lt (m := p :: m) (a := q.1)] at this
          · simp only [storeRead, if_true] at this
            exact absurd this.symm (hm'.2 q (by simp)).2
          · intro r hr
            rcases List.mem_cons.1 hr with rfl | hr
            · exact hgt
            · exact Nat.lt_trans hgt (hp.1 r hr)
      have hval : p.2 = q.2 := by
        have := h p.1
        simpa [storeRead, heq] using this
      have htail : m = m' := by
        refine ih tailWf tailWf' fun a => ?_
        by_cases ha : a = p.1
        · rw [storeRead_of_lt (fun r hr => by rw [ha]; exact hp.1 r hr),
            storeRead_of_lt (fun r hr => by rw [ha, heq]; exact hq.1 r hr)]
        · have := h a
          simpa [storeRead, Ne.symm ha, heq ▸ Ne.symm ha] using this
      rw [htail, Prod.ext heq hval]

end

/-! ### The three memories -/

theorem imgWrite_wf {m : Memory} {a : Nat} {v : Byte} (hm : Memory.wf m) (ha : a < Config.imgLen) :
    Memory.wf (imgWrite m a v) := storeWrite_wf hm ha

theorem fbWrite_wf {m : FrameMem} {a : Nat} {v : Nibble} (hm : FrameMem.wf m) (ha : a < Config.fbN) :
    FrameMem.wf (fbWrite m a v) := storeWrite_wf hm ha

theorem catWrite_wf {m : CatMem} {a : Nat} {v : CatEntry} (hm : CatMem.wf m) (ha : a < Config.catMax) :
    CatMem.wf (catWrite m a v) := storeWrite_wf hm ha

theorem imgRead_imgWrite {m : Memory} {a b : Nat} {v : Byte} (hm : Memory.wf m) :
    imgRead (imgWrite m a v) b = if b = a then v else imgRead m b := storeRead_storeWrite hm

theorem fbRead_fbWrite {m : FrameMem} {a b : Nat} {v : Nibble} (hm : FrameMem.wf m) :
    fbRead (fbWrite m a v) b = if b = a then v else fbRead m b := storeRead_storeWrite hm

theorem catRead_catWrite {m : CatMem} {a b : Nat} {v : CatEntry} (hm : CatMem.wf m) :
    catRead (catWrite m a v) b = if b = a then v else catRead m b := storeRead_storeWrite hm

theorem resetMemories_wf : Memory.wf State.reset.img ∧ FrameMem.wf State.reset.fb ∧ CatMem.wf State.reset.cat :=
  ⟨storeWf_nil, storeWf_nil, storeWf_nil⟩

end Sys2Proof.Machine
end

