-- ==== Sys2Proof/Laws/Ops.lean ====
section
/-! SUPPORT. What each shared operation can do, said once. -/

namespace Sys2Proof.Machine

/-- R230: a CMD write is refused while BUSY, and otherwise accepted. -/
theorem accept_cases (body : State → State) (s : State) :
    (s.busy = true ∧ accept body s = refuse s) ∨
      (s.busy = false ∧ accept body s = body { s with errCode := 0 }) := by
  cases h : s.busy <;> simp [accept, h]

theorem accept_idle {body : State → State} {s : State} (h : s.busy = false) :
    accept body s = body { s with errCode := 0 } := by simp [accept, h]

theorem accept_busy {body : State → State} {s : State} (h : s.busy = true) : accept body s = refuse s := by
  simp [accept, h]

/-- R130: the acceptance of LOAD or UNPACK, both ways. -/
theorem startDecoding_cases (op : BitVec 4) (s : State) :
    (inputOk s = true ∧
        startDecoding op s = start op .unpacking { s with fbValid := false, catValid := false }) ∨
      (inputOk s = false ∧
        startDecoding op s = complete .malformedInput { s with fbValid := false, catValid := false }) := by
  have h : inputOk { s with fbValid := false, catValid := false } = inputOk s := rfl
  unfold startDecoding
  cases h' : inputOk s <;> simp [h, h']

/-- R130: the acceptance of CATALOG, both ways. -/
theorem startCatalog_cases (s : State) :
    (s.fbValid = true ∧ startCatalog s = start opCatalog .cataloging { s with catValid := false }) ∨
      (s.fbValid = false ∧ startCatalog s = complete .noFramebuffer s) := by
  cases h : s.fbValid <;> simp [startCatalog, h]

/-- R122: what IN_PUSH can do. -/
theorem pushByte_cases (v : Byte) (s : State) :
    (s.busy = true ∧ pushByte v s = refuse s) ∨
      (s.busy = false ∧ s.inCount.toNat < Config.imgLen ∧
        pushByte v s = { s with img := imgWrite s.img s.inCount.toNat v, inCount := s.inCount + 1 }) ∨
      (s.busy = false ∧ Config.imgLen ≤ s.inCount.toNat ∧ pushByte v s = { s with inOvf := true }) := by
  unfold pushByte
  cases s.busy
  · by_cases h : s.inCount.toNat < Config.imgLen
    · exact .inr (.inl ⟨rfl, h, by simp only [h, if_true]; rfl⟩)
    · exact .inr (.inr ⟨rfl, Nat.not_lt.1 h, by simp only [h, if_false]; rfl⟩)
  · exact .inl ⟨rfl, by simp⟩

/-- R120: what IN_RESET can do. -/
theorem resetInput_cases (s : State) :
    (s.busy = true ∧ resetInput s = refuse s) ∨
      (s.busy = false ∧ resetInput s = { s with inCount := 0, inOvf := false }) := by
  cases h : s.busy <;> simp [resetInput, h]

/-- R126: the length check. -/
theorem inputOk_iff (s : State) : inputOk s = true ↔ s.inCount.toNat = Config.imgLen ∧ s.inOvf = false := by
  simp [inputOk, inFull]

/-- R131, R133: a set event alone. -/
@[simp] theorem intUpdate_set (old set : BitVec 3) : intUpdate old set 0#3 = old ||| set := by
  have h : ∀ x y : BitVec 3, (x &&& ~~~0#3) ||| y = x ||| y := by decide
  exact h old set

/-- R124: a clear alone. -/
@[simp] theorem intUpdate_clear (old clr : BitVec 3) : intUpdate old 0#3 clr = old &&& ~~~clr := by
  simp [intUpdate]

end Sys2Proof.Machine
end

