-- ==== Sys2Proof/Laws/Engine.lean ====
section
/-! SUPPORT. The engine: what one of its steps can do, said once, and runs of several steps. -/

namespace Sys2Proof.Machine

/-- What an engine step can do. -/
theorem engineStep_cases (s : State) :
    (s.phase = .idle ∧ engineStep s = s) ∨
      (∃ p, s.phase = .unpacking ∧ s.cursor = some p ∧ engineStep s = unpackStatement p s) ∨
      (s.phase = .unpacking ∧ s.cursor = none ∧ engineStep s = endUnpack s) ∨
      (∃ p, s.phase = .cataloging ∧ s.cursor = some p ∧ engineStep s = catalogStatement p s) ∨
      (s.phase = .cataloging ∧ s.cursor = none ∧ engineStep s = endCatalog s) := by
  unfold engineStep
  cases hp : s.phase <;> cases hc : s.cursor <;> simp

theorem engineStep_idle {s : State} (h : s.phase = .idle) : engineStep s = s := by
  simp [engineStep, h]

theorem engineStep_unpacking {s : State} {p : Pos} (h : s.phase = .unpacking) (hc : s.cursor = some p) :
    engineStep s = unpackStatement p s := by simp [engineStep, h, hc]

theorem engineStep_endUnpack {s : State} (h : s.phase = .unpacking) (hc : s.cursor = none) :
    engineStep s = endUnpack s := by simp [engineStep, h, hc]

theorem engineStep_cataloging {s : State} {p : Pos} (h : s.phase = .cataloging) (hc : s.cursor = some p) :
    engineStep s = catalogStatement p s := by simp [engineStep, h, hc]

theorem engineStep_endCatalog {s : State} (h : s.phase = .cataloging) (hc : s.cursor = none) :
    engineStep s = endCatalog s := by simp [engineStep, h, hc]

/-- R140, R168, R170: the end of the unpack phase, both ways. -/
theorem endUnpack_cases (s : State) :
    (s.opLat = opLoad ∧ endUnpack s = { s with phase := .cataloging, cursor := some firstPos }) ∨
      (s.opLat ≠ opLoad ∧ endUnpack s = drawIdle (complete .none { s with fbValid := true })) := by
  by_cases h : s.opLat = opLoad <;> simp [endUnpack, h]

/-- R140, R201: the end of the catalog phase, both ways. -/
theorem endCatalog_cases (s : State) :
    (s.opLat = opLoad ∧ endCatalog s = drawIdle (complete .none { s with fbValid := true, catValid := true })) ∨
      (s.opLat ≠ opLoad ∧ endCatalog s = drawIdle (complete .none { s with catValid := true })) := by
  by_cases h : s.opLat = opLoad <;> simp [endCatalog, h]

theorem engineRun_add (m n : Nat) (s : State) : engineRun (m + n) s = engineRun n (engineRun m s) := by
  induction m generalizing s with
  | zero => simp [engineRun]
  | succ m ih => rw [Nat.succ_add, engineRun, engineRun, ih]

theorem engineRun_succ' (n : Nat) (s : State) : engineRun (n + 1) s = engineStep (engineRun n s) := by
  rw [engineRun_add]; rfl

/-- R240: an idle engine stays as it is. -/
theorem engineRun_idle {s : State} (h : s.phase = .idle) (n : Nat) : engineRun n s = s := by
  induction n with
  | zero => rfl
  | succ n ih => rw [engineRun, engineStep_idle h, ih]

/-- An induction packaged once: what every engine step keeps, every run of the engine keeps. -/
theorem engineRun_keeps {P : State → Prop} (h : ∀ s, P s → P (engineStep s)) (n : Nat) {s : State} (hs : P s) :
    P (engineRun n s) := by
  induction n generalizing s with
  | zero => exact hs
  | succ n ih => exact ih (h s hs)

/-- R198: the search finds an entry in use that holds the key, or there is none. -/
theorem findKey_cases (cat : CatMem) (n : Nat) (key : Key) :
    (findKey cat n key = none ∧ ∀ e, e < n → (catRead cat e).key ≠ key) ∨
      (∃ e, findKey cat n key = some e ∧ e < n ∧ (catRead cat e).key = key ∧
        ∀ e', e' < e → (catRead cat e').key ≠ key) := by
  unfold findKey
  cases h : (List.range n).find? fun e => (catRead cat e).key == key with
  | none => exact .inl ⟨rfl, by simpa [List.find?_eq_none] using h⟩
  | some e =>
    rw [List.find?_range_eq_some] at h
    simp only [beq_iff_eq, List.mem_range, Bool.not_eq_eq_eq_not, Bool.not_true, beq_eq_false_iff_ne] at h
    exact .inr ⟨e, rfl, h.2.1, h.1, h.2.2⟩

/-- R198: what insert-or-count can do. -/
theorem insertOrCount_cases (key : Key) (s : State) :
    ((∀ e, e < s.ncat.toNat → (catRead s.cat e).key ≠ key) ∧
        insertOrCount key s =
          { s with cat := catWrite s.cat s.ncat.toNat { key := key, count := 1 }, ncat := s.ncat + 1 }) ∨
      (∃ e, e < s.ncat.toNat ∧ (catRead s.cat e).key = key ∧ (∀ e', e' < e → (catRead s.cat e').key ≠ key) ∧
        insertOrCount key s =
          { s with cat := catWrite s.cat e { catRead s.cat e with count := (catRead s.cat e).count + 1 } }) := by
  rcases findKey_cases s.cat s.ncat.toNat key with ⟨h, hn⟩ | ⟨e, h, he, hk, hf⟩
  · exact .inl ⟨hn, by simp [insertOrCount, h]⟩
  · exact .inr ⟨e, he, hk, hf, by simp [insertOrCount, h]⟩

/-- R196: one counter after an increment. -/
theorem histIncrement_get (h : Vector Word 16) (v : Nibble) (c : Fin 16) :
    (histIncrement h v)[c] = if c.val = v.toNat then h[c] + 1 else h[c] := by
  by_cases hc : c.val = v.toNat
  · have hc' : v.toNat = c.val := hc.symm
    simp [histIncrement, hc']
  · have hc' : v.toNat ≠ c.val := fun h => hc h.symm
    simp [histIncrement, hc, hc']

/-- What one statement of the catalog phase can do, by its three parts. -/
theorem catalogStatement_eq (p : Pos) (s : State) :
    catalogStatement p s =
      { (if p.i = 7 ∧ p.j = 3 then
            insertOrCount (scanEntry p (if p = firstPos then clearCounts s else s)).latches.key
              (scanEntry p (if p = firstPos then clearCounts s else s))
          else scanEntry p (if p = firstPos then clearCounts s else s)) with
        cursor := nextPos p } := rfl

end Sys2Proof.Machine
end

