-- ==== Sys2Proof/Laws/PerInstr.lean ====
section
/-! SUPPORT. Statements made for each instruction: the byte offset its transaction goes to, by the opcode table. -/

namespace Sys2Proof.Laws.RowOffset

/-- The word address of a transaction. -/
def txnAddr : HostTxn → WordAddr
  | .read a => a
  | .write a _ => a

/-- The byte offset the instruction's row gives (`transaction` and `offset` of the opcode table), RD's its own operand's. -/
def rowOffset : Instr → Nat
  | .nop | .load | .unpack | .catalog | .clear => 0x004
  | .inReset _ => 0x014
  | .inPush _ _ => 0x018
  | .cfgWr _ _ => 0x010
  | .intEnWr _ _ _ _ => 0x020
  | .intAck _ _ => 0x024
  | .rd offset => offset.toNat / 4 * 4

/-- The instruction's transaction goes to its row's offset. -/
def Statement (i : Instr) : Prop := 4 * (txnAddr (encode i)).toNat = rowOffset i

theorem nop : Statement .nop := by simp [Statement, encode, txnAddr, rowOffset, cmdAddr, wordAddr]
theorem load : Statement .load := by simp [Statement, encode, txnAddr, rowOffset, cmdAddr, wordAddr]
theorem unpack : Statement .unpack := by simp [Statement, encode, txnAddr, rowOffset, cmdAddr, wordAddr]
theorem catalog : Statement .catalog := by simp [Statement, encode, txnAddr, rowOffset, cmdAddr, wordAddr]
theorem clear : Statement .clear := by simp [Statement, encode, txnAddr, rowOffset, cmdAddr, wordAddr]
theorem inReset (ignored : BitVec 31) : Statement (.inReset ignored) := by
  simp [Statement, encode, txnAddr, rowOffset, inCtrlAddr, wordAddr]
theorem inPush (byte : Byte) (ignored : BitVec 24) : Statement (.inPush byte ignored) := by
  simp [Statement, encode, txnAddr, rowOffset, inDataAddr, wordAddr]
theorem cfgWr (keytab : BitVec 1) (ignored : BitVec 31) : Statement (.cfgWr keytab ignored) := by
  simp [Statement, encode, txnAddr, rowOffset, cfgAddr, wordAddr]
theorem intEnWr (doneIe errIe violIe : BitVec 1) (ignored : BitVec 29) :
    Statement (.intEnWr doneIe errIe violIe ignored) := by
  simp [Statement, encode, txnAddr, rowOffset, intEnAddr, wordAddr]
theorem intAck (clr : BitVec 3) (ignored : BitVec 29) : Statement (.intAck clr ignored) := by
  simp [Statement, encode, txnAddr, rowOffset, intStatusAddr, wordAddr]
theorem rd (offset : BitVec 17) : Statement (.rd offset) := by
  have := offset.isLt
  simp only [Statement, encode, txnAddr, rowOffset, wordAddr, BitVec.extractLsb'_toNat, Nat.shiftRight_eq_div_pow]
  omega

end Sys2Proof.Laws.RowOffset
end

