-- ==== Sys2Proof/Laws/Step.lean ====
section
/-! SUPPORT. What one step can do, said once, by the next move on the inputs. -/

namespace Sys2Proof.Machine

theorem step_waiting {s : State} (h : s.inputs = []) : step s = .next (engineStep s) := by simp [step, h]

theorem step_engine {s : State} {work : Nat} {rest : List Input} (h : s.inputs = .engine work :: rest) :
    step s = .next (engineRun work { s with inputs := rest }) := by simp [step, h]

theorem step_reset {s : State} {rest : List Input} (h : s.inputs = .reset :: rest) :
    step s = .next (resetBlock { s with inputs := rest }) := by simp [step, h]

/-- R62, R120, R139: a transaction that is no instruction. -/
theorem step_rejected {s : State} {t : HostTxn} {r : Reject} {rest : List Input} (h : s.inputs = .bus t :: rest)
    (hd : decode t = .error r) : step s = .next (runRejected r { s with inputs := rest }) := by
  simp only [step, h, busStep, hd]

/-- R62, R120: a rejected write other than the illegal command leaves the block as it is. -/
theorem runRejected_eq {r : Reject} (hr : r ≠ .illegalCommand) (s : State) : runRejected r s = s := by
  cases r <;> first | rfl | exact absurd rfl hr

/-- What an instruction can do: every meaning answers a next state. -/
theorem exec_cases (i : Instr) (s : State) :
    (i = .nop ∧ exec i s = .next (accept (complete .none) s)) ∨
      (i = .load ∧ exec i s = .next (accept (startDecoding opLoad) s)) ∨
      (i = .unpack ∧ exec i s = .next (accept (startDecoding opUnpack) s)) ∨
      (i = .catalog ∧ exec i s = .next (accept startCatalog s)) ∨
      (i = .clear ∧ exec i s = .next (accept clearResults s)) ∨
      (∃ ignored, i = .inReset ignored ∧ exec i s = .next (resetInput s)) ∨
      (∃ byte ignored, i = .inPush byte ignored ∧ exec i s = .next (pushByte byte s)) ∨
      (∃ keytab ignored, i = .cfgWr keytab ignored ∧ exec i s = .next { s with cfgKeytab := keytab }) ∨
      (∃ doneIe errIe violIe ignored, i = .intEnWr doneIe errIe violIe ignored ∧
        exec i s = .next { s with intEn := violIe ++ errIe ++ doneIe }) ∨
      (∃ clr ignored, i = .intAck clr ignored ∧
        exec i s = .next { s with intStatus := intUpdate s.intStatus 0#3 clr }) ∨
      (∃ offset, i = .rd offset ∧ exec i s = .next { s with readData := hostRead s (wordAddr offset) }) := by
  cases i <;> simp [exec, execNop, execLoad, execUnpack, execCatalog, execClear, execInReset, execInPush, execCfgWr,
    execIntEnWr, execIntAck, execRd]

end Sys2Proof.Machine
end

