-- ==== Sys2Proof/Laws/Phases.lean ====
section
/-! SUPPORT. The two phases of the engine, run from their first position: what holds after `n` of their statements. -/

namespace Sys2Proof.Machine

/-! ### The cursor by its index -/

/-- The position with index `n`. -/
def posOf (n : Nat) (h : n < 32000) : Pos :=
  ⟨⟨n / 1280, by omega⟩, ⟨n / 32 % 40, by omega⟩, ⟨n / 4 % 8, by omega⟩, ⟨n % 4, by omega⟩⟩

/-- The cursor after `n` statements of a phase. -/
def cursorAt (n : Nat) : Option Pos := if h : n < 32000 then some (posOf n h) else none

theorem posIndex_posOf {n : Nat} (h : n < 32000) : posIndex (posOf n h) = n := by
  simp only [posIndex, cellIndex, posOf]; omega

theorem posOf_posIndex (p : Pos) : posOf (posIndex p) (posIndex_lt p) = p := posIndex_inj (posIndex_posOf _)

theorem cursorAt_zero : cursorAt 0 = some firstPos := rfl

theorem cursorAt_of_lt {n : Nat} (h : n < 32000) : cursorAt n = some (posOf n h) := by simp [cursorAt, h]

theorem cursorAt_last : cursorAt 32000 = none := rfl

theorem nextPos_posOf {n : Nat} (h : n < 32000) : nextPos (posOf n h) = cursorAt (n + 1) := by
  rcases nextPos_cases (posOf n h) with ⟨q, hq, hi⟩ | ⟨hq, hi⟩ <;> rw [hq]
  · rw [posIndex_posOf] at hi
    have h1 : n + 1 < 32000 := hi ▸ posIndex_lt q
    rw [cursorAt_of_lt h1, ← posIndex_inj ((posIndex_posOf h1).trans hi.symm)]
  · rw [posIndex_posOf] at hi
    rw [hi]; rfl

theorem posOf_eq_firstPos {n : Nat} (h : n < 32000) : posOf n h = firstPos ↔ n = 0 := by
  constructor
  · intro e; rw [← posIndex_posOf h, e]; rfl
  · rintro rfl; rfl

/-- The framebuffer entry of a position, by the position's index. -/
theorem fbAddr_inj {p q : Pos} (h : fbAddr p = fbAddr q) : p = q := by
  have := p.y.isLt; have := p.x.isLt; have := p.i.isLt; have := p.j.isLt
  have := q.y.isLt; have := q.x.isLt; have := q.i.isLt; have := q.j.isLt
  simp only [fbAddr, Config.fbW] at h
  apply Pos_ext <;> omega

/-! ### The unpack phase -/

/-- What holds of the latches before the statement at `p`, where its loops did not just begin (R168). -/
def LatchesAt (img : Memory) (l : Latches) (p : Pos) : Prop :=
  (p ≠ firstPos → l.bg = imgRead img Config.bgOff) ∧
  (¬ (p.i = 0 ∧ p.j = 0) → l.scr = imgRead img (screenAddr p) ∧ l.col = imgRead img (colorAddr p)) ∧
  (p.j ≠ 0 → l.b = imgRead img (bitmapAddr p))

theorem latchesAt_firstPos (img : Memory) (l : Latches) : LatchesAt img l firstPos :=
  ⟨fun h => absurd rfl h, fun h => absurd ⟨rfl, rfl⟩ h, fun h => absurd rfl h⟩

/-- R168: with the latches right, the statement's loads give the bytes of the position's cell and line. -/
theorem unpackLatches_eq {img : Memory} {l : Latches} {p : Pos} (h : LatchesAt img l p) :
    unpackLatches img l p =
      { b := imgRead img (bitmapAddr p), scr := imgRead img (screenAddr p), col := imgRead img (colorAddr p),
        bg := imgRead img Config.bgOff, code := code (imgRead img (bitmapAddr p)) p.j, key := l.key } := by
  obtain ⟨h1, h2, h3⟩ := h
  have e1 : (if p = firstPos then imgRead img Config.bgOff else l.bg) = imgRead img Config.bgOff := by
    split
    · rfl
    · next h => exact h1 h
  have e2 : (if p.i = 0 ∧ p.j = 0 then imgRead img (screenAddr p) else l.scr) = imgRead img (screenAddr p) := by
    split
    · rfl
    · next h => exact (h2 h).1
  have e3 : (if p.i = 0 ∧ p.j = 0 then imgRead img (colorAddr p) else l.col) = imgRead img (colorAddr p) := by
    split
    · rfl
    · next h => exact (h2 h).2
  have e4 : (if p.j = 0 then imgRead img (bitmapAddr p) else l.b) = imgRead img (bitmapAddr p) := by
    split
    · rfl
    · next h => exact h3 h
  simp only [unpackLatches, e1, e2, e3, e4]

/-- R168: the loads of one statement serve the next. -/
theorem latchesAt_next {img : Memory} {l : Latches} {p q : Pos} (h : LatchesAt img l p)
    (hq : posIndex q = posIndex p + 1) : LatchesAt img (unpackLatches img l p) q := by
  rw [unpackLatches_eq h]
  have hp := posIndex_fields p
  have hq' := posIndex_fields q
  refine ⟨fun _ => rfl, fun hn => ?_, fun hn => ?_⟩
  · have hc : cellIndex q = cellIndex p := by
      have : ¬ (q.i.val = 0 ∧ q.j.val = 0) := fun h => hn ⟨Fin.ext h.1, Fin.ext h.2⟩
      omega
    simp only [screenAddr, colorAddr, hc, and_self]
  · have hj : q.j.val ≠ 0 := fun h => hn (Fin.ext h)
    have hb : bitmapAddr q = bitmapAddr p := by
      simp only [bitmapAddr]
      have : cellIndex q = cellIndex p ∧ q.i.val = p.i.val := by omega
      rw [this.1, this.2]
    simp only [hb]

/-- R168: the unpack phase, `n` statements from its start: the entries of the positions done hold their pixels, the other
entries are as before, and only FB, the latches and the cursor have changed. -/
theorem unpack_run {s : State} (hwf : FrameMem.wf s.fb) (hp : s.phase = .unpacking) (hc : s.cursor = some firstPos)
    (n : Nat) (hn : n ≤ 32000) :
    ∃ fb l, engineRun n s = { s with fb := fb, latches := l, cursor := cursorAt n } ∧ FrameMem.wf fb ∧
      (∀ p, fbRead fb (fbAddr p) = if posIndex p < n then pixel s.img p else fbRead s.fb (fbAddr p)) ∧
      ∀ p, posIndex p = n → LatchesAt s.img l p := by
  induction n with
  | zero =>
    refine ⟨s.fb, s.latches, ?_, hwf, fun p => by simp, fun p h => ?_⟩
    · simp only [engineRun, cursorAt_zero, ← hc]
    · rw [posIndex_inj (h.trans posIndex_firstPos.symm)]; exact latchesAt_firstPos _ _
  | succ n ih =>
    obtain ⟨fb, l, e, hw, hfb, hl⟩ := ih (by omega)
    have hlt : n < 32000 := by omega
    have hl := hl _ (posIndex_posOf hlt)
    rw [engineRun_succ', e, engineStep_unpacking (s := { s with fb := fb, latches := l, cursor := cursorAt n })
      (p := posOf n hlt) hp (cursorAt_of_lt hlt)]
    refine ⟨fbWrite fb (fbAddr (posOf n hlt)) (pixel s.img (posOf n hlt)), unpackLatches s.img l (posOf n hlt), ?_,
      fbWrite_wf hw (fbAddr_lt _), fun p => ?_, fun p h => ?_⟩
    · simp only [unpackStatement, nextPos_posOf, unpackLatches_eq hl, pixel]
    · rw [fbRead_fbWrite hw, hfb p]
      by_cases hpq : p = posOf n hlt
      · subst hpq; simp [posIndex_posOf]
      · have h1 : fbAddr p ≠ fbAddr (posOf n hlt) := fun h => hpq (fbAddr_inj h)
        have h2 : posIndex p ≠ n := fun h => hpq (posIndex_inj (h.trans (posIndex_posOf hlt).symm))
        have h3 : (posIndex p < n + 1) = (posIndex p < n) := by simp; omega
        simp only [h1, if_false, h3]
    · exact latchesAt_next hl (h.trans (congrArg (· + 1) (posIndex_posOf hlt).symm))

/-! ### The catalog phase -/

/-- The framebuffer entry that the `n`-th statement of the catalog phase scans. -/
def scannedEntry (fb : FrameMem) (n : Nat) : Nibble :=
  fbRead fb ((n / 1280 * 8 + n / 4 % 8) * 160 + (n / 32 % 40 * 4 + n % 4))

theorem scannedEntry_posOf (fb : FrameMem) {n : Nat} (h : n < 32000) :
    fbRead fb (fbAddr (posOf n h)) = scannedEntry fb n := rfl

/-- R193: digit `j` of the key of cell `c` is the digit of the entry its statement scans. -/
theorem digitAt_keyOfCell (fb : FrameMem) (k : BitVec 1) (c : Nat) {j : Nat} (hj : j < 32) :
    digitAt (keyOfCell fb k c) j = digit (scannedEntry fb (32 * c + j)) k := by
  rw [keyOfCell, digitAt_cellKey _ _ _ _ hj, scannedEntry]
  have h1 : (32 * c + j) / 1280 = c / 40 := by omega
  have h2 : (32 * c + j) / 4 % 8 = j / 4 := by omega
  have h3 : (32 * c + j) / 32 % 40 = c % 40 := by omega
  have h4 : (32 * c + j) % 4 = j % 4 := by omega
  rw [h1, h2, h3, h4]

/-- R198, R199, R202: what the catalog holds after the first `m` cells. -/
structure CatUpTo (fb : FrameMem) (k : BitVec 1) (m ncat : Nat) (cat : CatMem) : Prop where
  ncat_le : ncat ≤ m
  distinct : ∀ e e', e < ncat → e' < ncat → (catRead cat e).key = (catRead cat e').key → e = e'
  complete : ∀ c, c < m → ∃ e, e < ncat ∧ (catRead cat e).key = keyOfCell fb k c
  sound : ∀ e, e < ncat → ∃ c, c < m ∧ keyOfCell fb k c = (catRead cat e).key
  counts : ∀ e, e < ncat → (catRead cat e).count.toNat =
    ((Finset.range m).filter fun c => keyOfCell fb k c = (catRead cat e).key).card
  ordered : ∀ e e', e < e' → e' < ncat → ∃ c, c < m ∧ keyOfCell fb k c = (catRead cat e).key ∧
    ∀ c', c' ≤ c → keyOfCell fb k c' ≠ (catRead cat e').key

theorem catUpTo_zero (fb : FrameMem) (k : BitVec 1) (cat : CatMem) : CatUpTo fb k 0 0 cat :=
  ⟨Nat.le_refl _, fun _ _ h => absurd h (Nat.not_lt_zero _), fun _ h => absurd h (Nat.not_lt_zero _),
    fun _ h => absurd h (Nat.not_lt_zero _), fun _ h => absurd h (Nat.not_lt_zero _),
    fun _ _ _ h => absurd h (Nat.not_lt_zero _)⟩

theorem card_filter_range_succ (f : Nat → Prop) [DecidablePred f] (m : Nat) :
    ((Finset.range (m + 1)).filter f).card = ((Finset.range m).filter f).card + if f m then 1 else 0 := by
  rw [Finset.range_add_one, Finset.filter_insert]
  split
  · rw [Finset.card_insert_of_notMem (by simp)]
  · rfl

/-- R198: insert-or-count takes the catalog over the next cell. -/
theorem catUpTo_insertOrCount {fb : FrameMem} {k : BitVec 1} {m : Nat} {s : State} (hw : CatMem.wf s.cat)
    (hm : m < 1000) (h : CatUpTo fb k m s.ncat.toNat s.cat) :
    CatUpTo fb k (m + 1) (insertOrCount (keyOfCell fb k m) s).ncat.toNat
        (insertOrCount (keyOfCell fb k m) s).cat ∧
      CatMem.wf (insertOrCount (keyOfCell fb k m) s).cat := by
  have hle := h.ncat_le
  rcases insertOrCount_cases (keyOfCell fb k m) s with ⟨hno, e⟩ | ⟨e0, he0, hk, _, e⟩ <;> rw [e]
  · have hn : (s.ncat + 1).toNat = s.ncat.toNat + 1 := by simp [BitVec.toNat_add]; omega
    have hnew : ∀ c, c < m → keyOfCell fb k c ≠ keyOfCell fb k m := fun c hc he => by
      obtain ⟨e', he', hk'⟩ := h.complete c hc
      exact hno e' he' (hk'.trans he)
    have hrd : ∀ e', catRead (catWrite s.cat s.ncat.toNat { key := keyOfCell fb k m, count := 1 }) e' =
        if e' = s.ncat.toNat then { key := keyOfCell fb k m, count := 1 } else catRead s.cat e' :=
      fun e' => catRead_catWrite hw
    have hold : ∀ e', e' < s.ncat.toNat →
        catRead (catWrite s.cat s.ncat.toNat { key := keyOfCell fb k m, count := 1 }) e' = catRead s.cat e' :=
      fun e' he' => by rw [hrd, if_neg (Nat.ne_of_lt he')]
    have hnewEntry := hrd s.ncat.toNat
    rw [if_pos rfl] at hnewEntry
    refine ⟨⟨by rw [hn]; omega, ?_, ?_, ?_, ?_, ?_⟩, catWrite_wf hw (by simp; omega)⟩ <;> dsimp only <;> rw [hn]
    · intro e1 e2 h1 h2 he
      rcases Nat.lt_succ_iff_lt_or_eq.1 h1 with h1 | rfl <;> rcases Nat.lt_succ_iff_lt_or_eq.1 h2 with h2 | rfl
      · rw [hold _ h1, hold _ h2] at he; exact h.distinct _ _ h1 h2 he
      · rw [hold _ h1, hnewEntry] at he; exact absurd he (hno _ h1)
      · rw [hold _ h2, hnewEntry] at he; exact absurd he.symm (hno _ h2)
      · rfl
    · intro c hc
      rcases Nat.lt_succ_iff_lt_or_eq.1 hc with hc | rfl
      · obtain ⟨e', he', hk'⟩ := h.complete c hc
        exact ⟨e', by omega, by rw [hold _ he', hk']⟩
      · exact ⟨s.ncat.toNat, by omega, by rw [hnewEntry]⟩
    · intro e' he'
      rcases Nat.lt_succ_iff_lt_or_eq.1 he' with he' | rfl
      · obtain ⟨c, hc, hk'⟩ := h.sound e' he'
        exact ⟨c, by omega, by rw [hold _ he', hk']⟩
      · exact ⟨m, by omega, by rw [hnewEntry]⟩
    · intro e' he'
      rw [card_filter_range_succ]
      rcases Nat.lt_succ_iff_lt_or_eq.1 he' with he' | rfl
      · have hne : keyOfCell fb k m ≠ (catRead s.cat e').key := fun h => hno _ he' h.symm
        rw [hold _ he', h.counts _ he', if_neg hne]; rfl
      · rw [hnewEntry]
        have h0 : ((Finset.range m).filter fun c => keyOfCell fb k c = keyOfCell fb k m) = ∅ :=
          Finset.filter_eq_empty_iff.2 fun c hc => hnew c (Finset.mem_range.1 hc)
        simp [h0]
    · intro e1 e2 h12 h2
      have h1 : e1 < s.ncat.toNat := by omega
      rcases Nat.lt_succ_iff_lt_or_eq.1 h2 with h2 | rfl
      · obtain ⟨c, hc, hk', ho⟩ := h.ordered e1 e2 h12 h2
        exact ⟨c, by omega, by rw [hold _ h1, hk'], fun c' hc' => by rw [hold _ h2]; exact ho c' hc'⟩
      · obtain ⟨c, hc, hk'⟩ := h.sound e1 h1
        exact ⟨c, by omega, by rw [hold _ h1, hk'], fun c' hc' => by rw [hnewEntry]; exact hnew c' (by omega)⟩
  · have hcnt : (catRead s.cat e0).count.toNat ≤ m := by
      rw [h.counts e0 he0]
      exact (Finset.card_filter_le _ _).trans (by simp)
    have hrd : ∀ e', catRead (catWrite s.cat e0
          { key := (catRead s.cat e0).key, count := (catRead s.cat e0).count + 1 }) e' =
        if e' = e0 then { key := (catRead s.cat e0).key, count := (catRead s.cat e0).count + 1 }
        else catRead s.cat e' := fun e' => catRead_catWrite hw
    have hkey : ∀ e', (catRead (catWrite s.cat e0
          { key := (catRead s.cat e0).key, count := (catRead s.cat e0).count + 1 }) e').key =
        (catRead s.cat e').key := fun e' => by
      rw [hrd]; split
      · next h => rw [h]
      · rfl
    refine ⟨⟨by dsimp only; omega, ?_, ?_, ?_, ?_, ?_⟩, catWrite_wf hw (by simp; omega)⟩ <;> dsimp only
    · intro e1 e2 h1 h2 he
      rw [hkey, hkey] at he
      exact h.distinct _ _ h1 h2 he
    · intro c hc
      rcases Nat.lt_succ_iff_lt_or_eq.1 hc with hc | rfl
      · obtain ⟨e', he', hk'⟩ := h.complete c hc
        exact ⟨e', he', by rw [hkey, hk']⟩
      · exact ⟨e0, he0, by rw [hkey, hk]⟩
    · intro e' he'
      obtain ⟨c, hc, hk'⟩ := h.sound e' he'
      exact ⟨c, by omega, by rw [hkey, hk']⟩
    · intro e' he'
      rw [card_filter_range_succ]
      simp only [hkey]
      rw [hrd]
      by_cases heq : e' = e0
      · subst heq
        rw [if_pos rfl, if_pos hk.symm, ← h.counts _ he']
        have : (catRead s.cat e').count.toNat + 1 < 2 ^ 32 := by omega
        have h1 : BitVec.toNat (1 : Word) = 1 := rfl
        simp only [BitVec.toNat_add, h1]
        omega
      · have hne : keyOfCell fb k m ≠ (catRead s.cat e').key := fun h' =>
          heq (h.distinct _ _ he' he0 (h'.symm.trans hk.symm))
        rw [if_neg heq, if_neg hne, h.counts _ he']; rfl
    · intro e1 e2 h12 h2
      obtain ⟨c, hc, hk', ho⟩ := h.ordered e1 e2 h12 h2
      exact ⟨c, by omega, by rw [hkey, hk'], fun c' hc' => by rw [hkey]; exact ho c' hc'⟩

/-- What holds of the catalog phase after `n` statements: the histogram counts the scanned entries (R196), the catalog
holds the cells done (R198), and the key latch the digits of the cell in progress (R193). -/
structure ScanUpTo (fb : FrameMem) (k : BitVec 1) (n : Nat) (s : State) : Prop where
  catWf : CatMem.wf s.cat
  hist : ∀ c : Fin 16, s.hist[c].toNat =
    ((Finset.range n).filter fun i => (scannedEntry fb i).toNat = c.val).card
  cat : CatUpTo fb k (n / 32) s.ncat.toNat s.cat
  key : ∀ j, j < n % 32 → digitAt s.latches.key j = digit (scannedEntry fb (32 * (n / 32) + j)) k

theorem scanUpTo_zero {fb : FrameMem} {k : BitVec 1} {s : State} (h : CatMem.wf s.cat) :
    ScanUpTo fb k 0 (clearCounts s) :=
  ⟨h, fun c => by simp, catUpTo_zero _ _ _, fun _ h => absurd h (Nat.not_lt_zero _)⟩

/-- R200: the innermost body and the insertion that may follow it, without the start of the phase. -/
def scanBody (p : Pos) (s : State) : State :=
  { (if p.i = 7 ∧ p.j = 3 then insertOrCount (scanEntry p s).latches.key (scanEntry p s) else scanEntry p s) with
    cursor := nextPos p }

theorem catalogStatement_eq_scanBody (p : Pos) (s : State) :
    catalogStatement p s = scanBody p (if p = firstPos then clearCounts s else s) := rfl

theorem digitPos_posOf {n : Nat} (hn : n < 32000) : digitPos (posOf n hn) = n % 32 := by
  have hpos : (posOf n hn).i.val = n / 4 % 8 ∧ (posOf n hn).j.val = n % 4 := ⟨rfl, rfl⟩
  simp only [digitPos, hpos]; omega

/-- R200: the last position of a cell, by its index. -/
theorem posOf_last {n : Nat} (hn : n < 32000) : ((posOf n hn).i = 7 ∧ (posOf n hn).j = 3) ↔ n % 32 = 31 := by
  have hpos : (posOf n hn).i.val = n / 4 % 8 ∧ (posOf n hn).j.val = n % 4 := ⟨rfl, rfl⟩
  simp only [Fin.ext_iff, hpos]
  show n / 4 % 8 = 7 ∧ n % 4 = 3 ↔ _
  omega

/-- R193: the digits of the cell in progress, one entry further. -/
theorem scanEntry_key {n : Nat} (hn : n < 32000) {s : State} (h : ScanUpTo s.fb s.kLat n s) (j : Nat)
    (hj : j < n % 32 + 1) : digitAt (scanEntry (posOf n hn) s).latches.key j =
      digit (scannedEntry s.fb (32 * (n / 32) + j)) s.kLat := by
  rw [scanEntry_latches, digitPos_posOf, digitAt_setDigit _ _ (by omega) (by omega), scannedEntry_posOf]
  split
  · next h' => rw [h']; congr 2; omega
  · exact h.key j (by omega)

/-- R193: after a cell's last entry the key latch holds the cell's key. -/
theorem scanEntry_key_last {n : Nat} (hn : n < 32000) {s : State} (h : ScanUpTo s.fb s.kLat n s) (hl : n % 32 = 31) :
    (scanEntry (posOf n hn) s).latches.key = keyOfCell s.fb s.kLat (n / 32) := by
  apply key_ext
  intro j hj
  rw [digitAt_keyOfCell _ _ _ hj]
  exact scanEntry_key hn h j (by omega)

/-- R198: insert-or-count writes nothing but the catalog, and reads nothing else. -/
theorem insertOrCount_scanEntry (key : Key) (p : Pos) (s : State) :
    insertOrCount key (scanEntry p s) =
      { scanEntry p s with cat := (insertOrCount key s).cat, ncat := (insertOrCount key s).ncat } := by
  unfold insertOrCount
  rw [show (scanEntry p s).cat = s.cat from rfl, show (scanEntry p s).ncat = s.ncat from rfl]
  cases findKey s.cat s.ncat.toNat key <;> rfl

/-- R200: everything one statement of the catalog phase does, field by field. -/
theorem scanBody_eq (p : Pos) (s : State) :
    scanBody p s = { s with
      hist := histIncrement s.hist (fbRead s.fb (fbAddr p))
      latches := { s.latches with key := (scanEntry p s).latches.key }
      cat := if p.i = 7 ∧ p.j = 3 then (insertOrCount (scanEntry p s).latches.key s).cat else s.cat
      ncat := if p.i = 7 ∧ p.j = 3 then (insertOrCount (scanEntry p s).latches.key s).ncat else s.ncat
      cursor := nextPos p } := by
  unfold scanBody
  split
  · rw [insertOrCount_scanEntry]; rfl
  · rfl

/-- R200: one statement takes the scan one entry further. -/
theorem scanUpTo_scanBody {n : Nat} (hn : n < 32000) {s : State} (h : ScanUpTo s.fb s.kLat n s) :
    ScanUpTo s.fb s.kLat (n + 1) (scanBody (posOf n hn) s) := by
  have hbound : ∀ c : Fin 16, ((Finset.range n).filter fun i => (scannedEntry s.fb i).toNat = c.val).card ≤ n :=
    fun c => (Finset.card_filter_le _ _).trans (by simp)
  have hhist : ∀ c : Fin 16, (scanEntry (posOf n hn) s).hist[c].toNat =
      ((Finset.range (n + 1)).filter fun i => (scannedEntry s.fb i).toNat = c.val).card := fun c => by
    have e := histIncrement_get s.hist (fbRead s.fb (fbAddr (posOf n hn))) c
    rw [scannedEntry_posOf] at e
    rw [scanEntry_hist, scannedEntry_posOf, e, card_filter_range_succ, ← h.hist c]
    have := hbound c
    have := h.hist c
    by_cases hc : c.val = (scannedEntry s.fb n).toNat
    · rw [if_pos hc, if_pos hc.symm, BitVec.toNat_add, show BitVec.toNat (1 : Word) = 1 from rfl]
      omega
    · rw [if_neg hc, if_neg (Ne.symm hc)]; rfl
  by_cases hl : n % 32 = 31
  · have hk := scanEntry_key_last hn h hl
    have hc := catUpTo_insertOrCount (s := scanEntry (posOf n hn) s) (m := n / 32) h.catWf (by omega) h.cat
    have hdiv : (n + 1) / 32 = n / 32 + 1 := by omega
    unfold scanBody
    rw [if_pos ((posOf_last hn).2 hl), hk]
    refine ⟨hc.2, fun c => ?_, ?_, fun j hj => absurd hj (by omega)⟩
    · have := hhist c
      simpa using this
    · rw [hdiv]; exact hc.1
  · have hdiv : (n + 1) / 32 = n / 32 := by omega
    have hmod : (n + 1) % 32 = n % 32 + 1 := by omega
    unfold scanBody
    rw [if_neg (fun h => hl ((posOf_last hn).1 h))]
    refine ⟨h.catWf, hhist, by rw [hdiv]; exact h.cat, fun j hj => ?_⟩
    rw [hdiv]
    exact scanEntry_key hn h j (hmod ▸ hj)

/-- What the catalog phase leaves alone. -/
structure SameButCatalog (s t : State) : Prop where
  rest : t = { s with hist := t.hist, cat := t.cat, ncat := t.ncat, latches := t.latches, cursor := t.cursor }

theorem sameButCatalog_scanBody (p : Pos) (s : State) : SameButCatalog s (scanBody p s) := by
  constructor
  unfold scanBody
  split
  · rcases insertOrCount_cases (scanEntry p s).latches.key (scanEntry p s) with ⟨_, e⟩ | ⟨_, _, _, _, e⟩ <;> rw [e] <;>
      rfl
  · rfl

theorem scanBody_cursor (p : Pos) (s : State) : (scanBody p s).cursor = nextPos p := rfl

/-- R200: the first statement of the catalog phase. -/
theorem engineRun_one_catalog {s : State} (hp : s.phase = .cataloging) (hc : s.cursor = some firstPos) :
    engineRun (0 + 1) s = scanBody (posOf 0 (by omega)) (clearCounts s) := by
  show engineStep s = _
  rw [engineStep_cataloging hp hc, catalogStatement_eq_scanBody, if_pos rfl]; rfl

/-- R200: a later statement of the catalog phase. -/
theorem engineRun_next_catalog {s : State} {n : Nat} (hp : s.phase = .cataloging) (hn : n + 1 < 32000)
    (hs : SameButCatalog s (engineRun (n + 1) s)) (hc : (engineRun (n + 1) s).cursor = cursorAt (n + 1)) :
    engineRun (n + 1 + 1) s = scanBody (posOf (n + 1) hn) (engineRun (n + 1) s) := by
  have hphase : (engineRun (n + 1) s).phase = .cataloging := by rw [hs.rest]; exact hp
  have hne : posOf (n + 1) hn ≠ firstPos := fun h => by rw [posOf_eq_firstPos] at h; omega
  rw [engineRun_succ', engineStep_cataloging hphase (hc.trans (cursorAt_of_lt hn)), catalogStatement_eq_scanBody,
    if_neg hne]

/-- R200: the catalog phase, `n` statements from its start, at least one. -/
theorem catalog_run {s : State} (hwf : CatMem.wf s.cat) (hp : s.phase = .cataloging) (hc : s.cursor = some firstPos)
    (n : Nat) (hn : n < 32000) :
    SameButCatalog s (engineRun (n + 1) s) ∧ (engineRun (n + 1) s).cursor = cursorAt (n + 1) ∧
      ScanUpTo s.fb s.kLat (n + 1) (engineRun (n + 1) s) := by
  induction n with
  | zero =>
    have e := engineRun_one_catalog hp hc
    have h := scanUpTo_scanBody hn (s := clearCounts s) (scanUpTo_zero hwf)
    rw [e]
    refine ⟨⟨?_⟩, by rw [scanBody_cursor, nextPos_posOf], h⟩
    rw [(sameButCatalog_scanBody (posOf 0 hn) (clearCounts s)).rest]; rfl
  | succ n ih =>
    obtain ⟨hs, hcur, hscan⟩ := ih (by omega)
    rw [engineRun_next_catalog hp hn hs hcur]
    generalize engineRun (n + 1) s = u at hs hscan
    have hfb : u.fb = s.fb := by rw [hs.rest]
    have hk : u.kLat = s.kLat := by rw [hs.rest]
    rw [← hfb, ← hk] at hscan
    have h := scanUpTo_scanBody hn hscan
    rw [hfb, hk] at h
    refine ⟨⟨?_⟩, by rw [scanBody_cursor, nextPos_posOf], h⟩
    rw [(sameButCatalog_scanBody (posOf (n + 1) hn) u).rest]
    rw [hs.rest]

/-- R200, R201: a CATALOG's phase, run past its end: the whole framebuffer is scanned and the command has completed. -/
theorem catalog_end {s : State} (hwf : CatMem.wf s.cat) (hp : s.phase = .cataloging) (hc : s.cursor = some firstPos)
    (ho : s.opLat ≠ opLoad) (n : Nat) (hn : 32001 ≤ n) :
    ∃ u, SameButCatalog s u ∧ ScanUpTo s.fb s.kLat 32000 u ∧
      engineRun n s = drawIdle (complete .none { u with catValid := true }) := by
  obtain ⟨h1, h2, h3⟩ := catalog_run hwf hp hc 31999 (by omega)
  obtain ⟨k, rfl⟩ : ∃ k, n = 32000 + (1 + k) := ⟨n - 32001, by omega⟩
  rw [engineRun_add, engineRun_add]
  rw [show 31999 + 1 = 32000 from rfl] at h1 h2 h3
  refine ⟨engineRun 32000 s, h1, h3, ?_⟩
  generalize engineRun 32000 s = u at h1 h2
  have hpu : u.phase = .cataloging := by rw [h1.rest]; exact hp
  have hou : u.opLat ≠ opLoad := by rw [h1.rest]; exact ho
  show engineRun k (engineStep u) = _
  rw [engineStep_endCatalog hpu (h2.trans cursorAt_last)]
  rcases endCatalog_cases u with ⟨h, _⟩ | ⟨_, e⟩
  · exact absurd h hou
  · rw [e]; exact engineRun_idle rfl k

/-- R198: insert-or-count reads nothing but the catalog. -/
theorem insertOrCount_congr {s t : State} (hc : t.cat = s.cat) (hn : t.ncat = s.ncat) (key : Key) :
    (insertOrCount key t).cat = (insertOrCount key s).cat ∧ (insertOrCount key t).ncat = (insertOrCount key s).ncat ∧
      (insertOrCount key t).hist = t.hist := by
  unfold insertOrCount
  rw [hc, hn]
  cases findKey s.cat s.ncat.toNat key <;> exact ⟨rfl, rfl, rfl⟩

/-- R200: one statement's effect on the counts depends on the framebuffer, the digit table and the counts alone. -/
theorem scanBody_agrees {n : Nat} (hn : n < 32000) {s t : State} (hs : ScanUpTo s.fb s.kLat n s)
    (ht : ScanUpTo t.fb t.kLat n t) (hfb : t.fb = s.fb) (hk : t.kLat = s.kLat) (hh : t.hist = s.hist)
    (hc : t.cat = s.cat) (hnc : t.ncat = s.ncat) :
    (scanBody (posOf n hn) t).hist = (scanBody (posOf n hn) s).hist ∧
      (scanBody (posOf n hn) t).cat = (scanBody (posOf n hn) s).cat ∧
      (scanBody (posOf n hn) t).ncat = (scanBody (posOf n hn) s).ncat := by
  have hist : (scanEntry (posOf n hn) t).hist = (scanEntry (posOf n hn) s).hist := by
    rw [scanEntry_hist, scanEntry_hist, hfb, hh]
  unfold scanBody
  split
  · next hl =>
    have hl : n % 32 = 31 := (posOf_last hn).1 hl
    rw [scanEntry_key_last hn hs hl, scanEntry_key_last hn ht hl, hfb, hk]
    obtain ⟨h1, h2, h3⟩ := insertOrCount_congr (s := scanEntry (posOf n hn) s) (t := scanEntry (posOf n hn) t) hc hnc
      (keyOfCell s.fb s.kLat (n / 32))
    obtain ⟨-, -, h4⟩ := insertOrCount_congr (s := scanEntry (posOf n hn) s) (t := scanEntry (posOf n hn) s) rfl rfl
      (keyOfCell s.fb s.kLat (n / 32))
    exact ⟨h3.trans (hist.trans h4.symm), h1, h2⟩
  · exact ⟨hist, hc, hnc⟩

/-- R73, R172, R200: two catalog phases over the same framebuffer, digit table and catalog memory build the same counts. -/
theorem catalog_run_agrees {s t : State} (hws : CatMem.wf s.cat) (hps : s.phase = .cataloging)
    (hcs : s.cursor = some firstPos) (hwt : CatMem.wf t.cat) (hpt : t.phase = .cataloging)
    (hct : t.cursor = some firstPos) (hfb : t.fb = s.fb) (hk : t.kLat = s.kLat) (hc : t.cat = s.cat) (n : Nat)
    (hn : n < 32000) :
    (engineRun (n + 1) t).hist = (engineRun (n + 1) s).hist ∧
      (engineRun (n + 1) t).cat = (engineRun (n + 1) s).cat ∧
      (engineRun (n + 1) t).ncat = (engineRun (n + 1) s).ncat := by
  induction n with
  | zero =>
    rw [engineRun_one_catalog hps hcs, engineRun_one_catalog hpt hct]
    exact scanBody_agrees (s := clearCounts s) (t := clearCounts t) hn (scanUpTo_zero hws) (scanUpTo_zero hwt) hfb hk
      rfl hc rfl
  | succ n ih =>
    obtain ⟨hh, hcat, hnc⟩ := ih (by omega)
    obtain ⟨as, bs, ds⟩ := catalog_run hws hps hcs n (by omega)
    obtain ⟨at', bt, dt⟩ := catalog_run hwt hpt hct n (by omega)
    rw [engineRun_next_catalog hps hn as bs, engineRun_next_catalog hpt hn at' bt]
    have fs := congrArg State.fb as.rest
    have ks := congrArg State.kLat as.rest
    have ft := congrArg State.fb at'.rest
    have kt := congrArg State.kLat at'.rest
    exact scanBody_agrees hn (by rw [fs, ks]; exact ds) (by rw [ft, kt]; exact dt) (ft.trans (hfb.trans fs.symm))
      (kt.trans (hk.trans ks.symm)) hh hcat hnc

/-- The scan visits every entry of the framebuffer once (R165, R200). -/
theorem card_scannedEntry (fb : FrameMem) (v : Nat) :
    ((Finset.range 32000).filter fun n => (scannedEntry fb n).toNat = v).card =
      ((Finset.range 32000).filter fun m => (fbRead fb m).toNat = v).card := by
  let f : Nat → Nat := fun n => (n / 1280 * 8 + n / 4 % 8) * 160 + (n / 32 % 40 * 4 + n % 4)
  have hf : ∀ n, n < 32000 → f n < 32000 := fun n h => by simp only [f]; omega
  have hinj : ∀ a, a < 32000 → ∀ b, b < 32000 → f a = f b → a = b := fun a ha b hb h => by
    have : posOf a ha = posOf b hb := fbAddr_inj h
    rw [← posIndex_posOf ha, this, posIndex_posOf hb]
  have himg : (Finset.range 32000).image f = Finset.range 32000 :=
    Finset.eq_of_subset_of_card_le (fun m hm => by
      obtain ⟨n, hn, rfl⟩ := Finset.mem_image.1 hm
      exact Finset.mem_range.2 (hf n (Finset.mem_range.1 hn)))
      (by rw [Finset.card_image_of_injOn fun a ha b hb => hinj a (by simpa using ha) b (by simpa using hb)])
  apply Finset.card_bij fun n _ => f n
  · intro n hn
    simp only [Finset.mem_filter, Finset.mem_range] at hn ⊢
    exact ⟨hf n hn.1, hn.2⟩
  · intro a ha b hb h
    simp only [Finset.mem_filter, Finset.mem_range] at ha hb
    exact hinj a ha.1 b hb.1 h
  · intro m hm
    simp only [Finset.mem_filter] at hm
    obtain ⟨n, hn, rfl⟩ := Finset.mem_image.1 (himg ▸ hm.1)
    exact ⟨n, Finset.mem_filter.2 ⟨hn, hm.2⟩, rfl⟩

end Sys2Proof.Machine
end

