-- ==== Sys2Proof/Tests/Slice0.lean ====
section
/-! SUPPORT. Small checks of the model on values of the spec (95_test_vectors.md, opcode_table.json), and, for every
statement with hypotheses, a named witness that meets them. -/

namespace Sys2Proof.Tests

open Sys2Proof.Machine

/-! ### Helpers -/

/-- The state a step or an instruction answers; the state after reset where it answers none. -/
def after : Host.Outcome State Fault Refusal → State
  | .next s => s
  | .fault _ => State.reset
  | .refused _ => State.reset

/-- One host transaction from a state. -/
def host (t : HostTxn) (s : State) : State := after (step { s with inputs := [.bus t] })

/-- A complete all-zero input (vector I5 of 95_test_vectors.md), nothing running. -/
def ready : State := { State.reset with inCount := 10001 }

/-- A valid all-zero framebuffer, nothing running. -/
def framed : State := { ready with fbValid := true }

/-- Valid results with one catalog entry (the results of vector V1). -/
def results : State :=
  { framed with
    catValid := true
    hist := (Vector.replicate 16 0).set 0 32000
    cat := [(0, { key := 0, count := 1000 })]
    ncat := 1 }

/-- A LOAD unpacking at position `p`. -/
def unpackingAt (p : Option Pos) : State := { ready with busy := true, phase := .unpacking, opLat := 1, cursor := p }

/-- A LOAD cataloging at position `p`. -/
def catalogingAt (p : Option Pos) : State := { ready with busy := true, phase := .cataloging, opLat := 1, cursor := p }

/-- The last position of a phase. -/
def lastPos : Pos := { y := 24, x := 39, i := 7, j := 3 }

/-! ### Well-formedness: the one check refuses -/

theorem test_rd_misaligned_refused : ¬ WellFormed (.rd 0x00002) := by decide
theorem test_rd_odd_refused : ¬ WellFormed (.rd 0x1FFFD) := by decide

/-! ### Decoding, one word at least for every constructor (opcode_table.json, R20, R91, R106) -/

theorem test_decode_nop : decode (.write (wordAddr 0x004) 0x00000000) = .ok .nop := by decide
theorem test_decode_load : decode (.write (wordAddr 0x004) 0x00000001) = .ok .load := by decide
theorem test_decode_unpack : decode (.write (wordAddr 0x004) 0x00000002) = .ok .unpack := by decide
theorem test_decode_catalog : decode (.write (wordAddr 0x004) 0x00000003) = .ok .catalog := by decide
theorem test_decode_clear : decode (.write (wordAddr 0x004) 0x00000004) = .ok .clear := by decide
theorem test_decode_inReset : decode (.write (wordAddr 0x014) 0xFFFFFFFF) = .ok (.inReset 0x7FFFFFFF) := by decide
theorem test_decode_inPush : decode (.write (wordAddr 0x018) 0x0000010E) = .ok (.inPush 0x0E 0x000001) := by decide
theorem test_decode_cfgWr : decode (.write (wordAddr 0x010) 0xFFFFFFFE) = .ok (.cfgWr 0 0x7FFFFFFF) := by decide
theorem test_decode_intEnWr : decode (.write (wordAddr 0x020) 0x0000000C) = .ok (.intEnWr 0 0 1 1) := by decide
theorem test_decode_intAck : decode (.write (wordAddr 0x024) 0x0000000B) = .ok (.intAck 0b011 1) := by decide
theorem test_decode_rd : decode (.read (wordAddr 0x0BE7C)) = .ok (.rd 0x0BE7C) := by decide

/-! What is no row of the table (R92, R120, R62, R34). -/

theorem test_decode_op5 : decode (.write (wordAddr 0x004) 0x00000005) = .error .illegalCommand := by decide
theorem test_decode_rsv : decode (.write (wordAddr 0x004) 0x80000000) = .error .illegalCommand := by decide
theorem test_decode_inCtrl0 : decode (.write (wordAddr 0x014) 0xFFFFFFFE) = .error .inCtrlWithoutRst := by decide
theorem test_decode_id : decode (.write (wordAddr 0x000) 0x00000000) = .error .readOnlyRegister := by decide
theorem test_decode_window : decode (.write (wordAddr 0x17CFC) 0x00000001) = .error .readOnlyWindow := by decide
theorem test_decode_reserved : decode (.write (wordAddr 0x17D00) 0x00000001) = .error .reservedAddress := by decide

theorem test_encode_inPush : encode (.inPush 0x0E 1) = .write (wordAddr 0x018) 0x0000010E := by decide
theorem test_encode_intEnWr : encode (.intEnWr 0 0 1 1) = .write (wordAddr 0x020) 0x0000000C := by decide

/-! ### The pure functions -/

/-- Vectors X3, X7. -/
theorem test_code : code 0x1B 1 = 1 ∧ code 0x1B 3 = 3 ∧ code 0xA5 0 = 2 ∧ code 0xA5 2 = 1 := by decide
/-- Vector M2. -/
theorem test_mux : mux 0 0x5A 0xF3 0xF6 = 6 ∧ mux 1 0x5A 0xF3 0xF6 = 5 ∧ mux 2 0x5A 0xF3 0xF6 = 0xA ∧
    mux 3 0x5A 0xF3 0xF6 = 3 := by decide
/-- Vector A6. -/
theorem test_addresses : fbAddr ⟨3, 2, 5, 1⟩ = 4649 ∧ bitmapAddr ⟨3, 2, 5, 1⟩ = 981 ∧ screenAddr ⟨3, 2, 5, 1⟩ = 8122 ∧
    colorAddr ⟨3, 2, 5, 1⟩ = 9122 := by decide
/-- Vector K1. -/
theorem test_digits : digit 10 1 = 0 ∧ digit 11 1 = 0xA ∧ digit 15 1 = 0xE ∧ digit 15 0 = 0xF := by decide
/-- R104: the first digit of a key stands in the most significant bits of KEY0. -/
theorem test_key_order : keyWord (setDigit 0 0 0x6) 0 = 0x60000000 ∧ keyWord (setDigit 0 31 0xA) 3 = 0x0000000A := by
  decide

/-! ### One step each, on values of 95_test_vectors.md -/

/-- Vectors E1, E6. -/
theorem test_nop_clear : (host (.write 1 0) State.reset).intStatus = 1 ∧ (host (.write 1 4) State.reset).errCode = 0 := by
  decide
/-- Vector E2. -/
theorem test_nop_keeps_err : (host (.write 1 0) { State.reset with errCode := 1, intStatus := 3 }).intStatus = 3 := by
  decide
/-- Vector E3. -/
theorem test_catalog_no_framebuffer : hostRead (host (.write 1 3) State.reset) 2 = 0x20 ∧
    hostRead (host (.write 1 3) State.reset) 3 = 4 := by decide
/-- Vectors E4, E5. -/
theorem test_load_unpack_malformed : hostRead (host (.write 1 1) State.reset) 9 = 3 ∧
    hostRead (host (.write 1 2) State.reset) 3 = 1 := by decide
/-- Vectors E9, E10. -/
theorem test_illegal : hostRead (host (.write 1 0x11) State.reset) 3 = 3 ∧
    hostRead (host (.write 1 0x80000000) State.reset) 2 = 0x20 := by decide
/-- Vector E13. -/
theorem test_clear_hides_results : hostRead (host (.write 1 4) results) 2 = 0x08 ∧
    hostRead (host (.write 1 4) results) 0x40 = 0 ∧ hostRead (host (.write 1 4) results) 10 = 0 := by decide
/-- R130: a LOAD of a complete input goes BUSY (program P1, step 8). -/
theorem test_load_starts : (host (.write 1 1) ready).busy = true ∧ (host (.write 1 1) ready).cursor = some firstPos := by
  decide
/-- Vectors E18, E19. -/
theorem test_busy_refuses : (host (.write 1 2) (unpackingAt none)).intStatus = 4 ∧
    (host (.write 1 7) (unpackingAt none)).errCode = 0 := by decide
/-- Vector I2. -/
theorem test_push : hostRead (host (.write 6 0x2C) (host (.write 6 0x1B) State.reset)) 0x1000 = 0x1B2C0000 := by decide
/-- Vectors I6, I7. -/
theorem test_push_overflow : hostRead (host (.write 6 0) ready) 2 = 0x18 ∧
    (host (.write 5 1) { ready with inOvf := true }).inOvf = false := by decide
/-- R123 and vector Q6. -/
theorem test_cfg_int_en : hostRead (host (.write 4 0xFFFFFFFF) State.reset) 4 = 1 ∧
    hostRead (host (.write 8 0xFFFFFFFF) State.reset) 8 = 7 := by decide
/-- Vectors Q3, Q4. -/
theorem test_ack : (host (.write 9 4) { State.reset with intStatus := 5 }).intStatus = 1 ∧
    (host (.write 9 0) { State.reset with intStatus := 3 }).intStatus = 3 := by decide
/-- Vector Z1 and the last rows of program P1. -/
theorem test_rd : (host (.read 0) State.reset).readData = 0x4B4F0007 ∧
    (host (.read (wordAddr 0x10010)) results).readData = 0x3E8 := by decide
/-- Program P1, rows 10, 12, 14 and 18. -/
theorem test_results_read : hostRead results 2 = 0x0E ∧ hostRead results (wordAddr 0x100) = 0x7D00 ∧
    hostRead results (wordAddr 0x028) = 1 ∧ hostRead results (wordAddr 0x10030) = 0 := by decide
/-- The first statement of vector V10: FB[0] = 6 from the background byte. -/
theorem test_unpack_step : (engineStep { unpackingAt (some firstPos) with
    img := [(0, 0x1B), (8000, 0x5A), (9000, 0xF3), (10000, 0x06)] }).fb = [(0, 6)] := by decide
/-- Vector K4: a key that differs in one word is a new entry. -/
theorem test_insert : (insertOrCount 0x66666666 results).ncat = 2 ∧
    catRead (insertOrCount 0 results).cat 0 = { key := 0, count := 1001 } := by decide
/-- Vector Q2. -/
theorem test_irq : irq { State.reset with intEn := 2, intStatus := 1 } = false ∧
    irq { State.reset with intEn := 2, intStatus := 3 } = true := by decide
/-- R61: the last word of the block's space, and the first byte past it. -/
theorem test_bridge : bridgeAddr 0x40000000 0x4001FFFE = some 0x7FFF ∧ bridgeAddr 0x40000000 0x40020000 = none := by decide

/-! ### Witnesses: states that meet the invariant -/

theorem inv_reset : Inv State.reset := by constructor <;> first | exact storeWf_nil | decide
theorem inv_ready : Inv ready := by constructor <;> first | exact storeWf_nil | decide
theorem inv_framed : Inv framed := by constructor <;> first | exact storeWf_nil | decide

theorem inv_unpacking_first : Inv (unpackingAt (some firstPos)) := by
  constructor <;> first | exact storeWf_nil | decide

theorem inv_unpacking_end : Inv (unpackingAt none) := by constructor <;> first | exact storeWf_nil | decide

theorem inv_cataloging_last : Inv (catalogingAt (some lastPos)) := by
  constructor <;> first | exact storeWf_nil | exact fun _ _ _ _ => Nat.zero_le _ | decide

theorem inv_cataloging_end : Inv (catalogingAt none) := by
  constructor <;> first | exact storeWf_nil | exact fun _ _ _ _ => Nat.zero_le _ | decide

/-! ### Witnesses: each theorem gives values that meet the hypotheses of the statement it names -/

theorem witness_DecodeOfEncode : WellFormed (.rd 0x1FFFC) ∧ WellFormed (.inReset 0x7FFFFFFF) := by decide
theorem witness_EncodeOfDecode : decode (.read 0x7FFF) = .ok (.rd 0x1FFFC) := by decide
theorem witness_RegisterWrites : (0xFFFFFFFF : Word).getLsbD 0 = true ∧ (0xFFFFFFFE : Word).getLsbD 0 = false := by decide
theorem witness_StepRuns : ({ ready with inputs := [.bus (.write 1 1), .engine 3] }).inputs =
    .bus (.write 1 1) :: [.engine 3] ∧ decode (.write 1 1) = .ok .load := by decide
theorem witness_StepTakesTheNextMove : ({ ready with inputs := [.engine 0] }).inputs = .engine 0 :: [] ∧
    ({ ready with inputs := [.reset] }).inputs = .reset :: [] ∧
    ({ ready with inputs := [.bus (.write 0 0)] }).inputs = .bus (.write 0 0) :: [] ∧ ready.inputs = [] ∧
    ready.phase = .idle := by decide
/-- Both hypotheses on the word, at their boundaries, and both clauses. -/
theorem witness_IllegalCommand : ((0x10 : Word).extractLsb' 4 28 ≠ 0) ∧ (5 ≤ ((0x5 : Word).extractLsb' 0 4).toNat) ∧
    ready.busy = false ∧ ready.phase = .idle ∧ (unpackingAt none).busy = true := by decide
theorem witness_BusyBlock : (unpackingAt none).busy = true ∧ (0x00000001 : Word).getLsbD 0 = true ∧
    (0xFFFFFFFE : Word).getLsbD 0 = false ∧ ((0 : WordAddr) ≠ 1 ∧ (0 : WordAddr) ≠ 4 ∧ (0 : WordAddr) ≠ 5 ∧
      (0 : WordAddr) ≠ 6 ∧ (0 : WordAddr) ≠ 8 ∧ (0 : WordAddr) ≠ 9) := by decide
/-- The five reserved ranges at their first and last words, which read 0 over valid results. -/
def reservedEnds : List WordAddr := [11, 0x3F, 0x50, 0xFFF, 0x19C5, 0x1FFF, 0x2FA0, 0x3FFF, 0x5F40, 0x7FFF]
theorem witness_Reserved : ∀ a ∈ reservedEnds,
    (11 ≤ a.toNat ∧ a.toNat < 0x40) ∨ (0x50 ≤ a.toNat ∧ a.toNat < 0x1000) ∨ (0x19C5 ≤ a.toNat ∧ a.toNat < 0x2000) ∨
      (0x2FA0 ≤ a.toNat ∧ a.toNat < 0x4000) ∨ 0x5F40 ≤ a.toNat := by simp [reservedEnds]
theorem test_reserved_reads_zero : reservedEnds.map (hostRead results) = List.replicate 10 0 := by decide
theorem witness_IdleCommand : results.busy = false ∧ results.phase = .idle ∧ results.fbValid = true ∧
    (unpackingAt none).busy = true := by decide
theorem witness_LoadStarts : ready.busy = false ∧ ready.inCount.toNat = 10001 ∧ ready.inOvf = false := by decide
/-- Malformed both ways: one byte short, and one too many. -/
theorem witness_Malformed :
    (∀ s ∈ [{ ready with inCount := 10000 }, { ready with inOvf := true }],
      s.busy = false ∧ s.phase = .idle ∧ ¬ (s.inCount.toNat = 10001 ∧ s.inOvf = false)) := by decide
theorem witness_NoFramebuffer : ready.busy = false ∧ ready.phase = .idle ∧ ready.fbValid = false := by decide
theorem witness_InReset : ready.busy = false ∧ (unpackingAt none).busy = true ∧ (0x2 : Word).getLsbD 0 = false := by decide
/-- The last byte that is stored, the first that is not, and the refusal. -/
theorem witness_InPush : ({ ready with inCount := 10000 }).inCount.toNat < 10001 ∧ ready.busy = false ∧
    10001 ≤ ready.inCount.toNat ∧ (unpackingAt none).busy = true := by decide
theorem witness_InPushSticky : ({ ready with inOvf := true }).inOvf = true ∧
    (∃ t, exec (.inPush 0 0) { ready with inOvf := true } = .next t) ∧ ∀ ignored, Instr.inPush 0 0 ≠ .inReset ignored :=
  ⟨rfl, ⟨_, rfl⟩, fun _ h => nomatch h⟩
theorem witness_InPushWrites : Memory.wf [(0, 1), (9999, 0xFF)] ∧ ({ ready with inCount := 10000 }).busy = false ∧
    ({ ready with inCount := 10000 }).inCount.toNat < 10001 := by decide
/-- Bit 2 is pending, and the step clears bits 0 and 1. -/
def acking : State := { ready with intStatus := 7, inputs := [.bus (.write 9 3)] }
theorem witness_InterruptBitsStay : (∃ t, step acking = .next t) ∧ acking.intStatus.getLsbD 2 = true ∧
    (∀ rest, acking.inputs ≠ .reset :: rest) ∧
    ∀ txn rest clr ignored, acking.inputs = .bus txn :: rest → decode txn = .ok (.intAck clr ignored) →
      clr.getLsbD 2 = false := by
  refine ⟨⟨_, rfl⟩, by decide, fun rest h => by simp [acking] at h, fun txn rest clr ignored h hd => ?_⟩
  obtain ⟨rfl, -⟩ : .write 9 3 = txn ∧ [] = rest := by simpa [acking] using h
  have h3 : decode (.write 9 3) = .ok (.intAck 3 0) := by decide
  rw [h3] at hd
  injection hd with hd
  injection hd with hd
  rw [← hd]; decide
theorem witness_ImgWindow : (2500 : Nat) ≤ 2500 ∧ 3 < 4 ∧ (0x19C4 : WordAddr).toNat = 0x1000 + 2500 := by decide
theorem witness_HistWindow : (0x4F : WordAddr).toNat = 0x40 + (15 : Fin 16).val := by decide
theorem witness_FbWindow : (3999 : Nat) < 4000 ∧ 7 < 8 ∧ (0x2F9F : WordAddr).toNat = 0x2000 + 3999 := by decide
/-- The last entry and the last word, exposed and not exposed. -/
theorem witness_CatWindow : (0x5F3F : WordAddr).toNat = 0x4000 + 8 * 999 + 7 ∧
    ({ results with ncat := 1000 }).catValid = true ∧ 999 < ({ results with ncat := 1000 }).ncat.toNat ∧
    ¬ (results.catValid = true ∧ 999 < results.ncat.toNat) := by decide
theorem witness_Bridge : (0x1FFFF : Nat) < 0x20000 ∧ 0x20000 ≤ (0x20000 : Nat) ∧ (0 : Nat) < 0x40000000 := by decide
theorem witness_FramebufferAddress : fbAddr lastPos = 31999 ∧ fbAddr firstPos = 0 := by decide
theorem witness_DigitTables : (9 : Nibble).toNat ≤ 9 ∧ (10 : Nibble).toNat = 10 ∧ 11 ≤ (11 : Nibble).toNat ∧
    11 ≤ (15 : Nibble).toNat := by decide
theorem witness_SetWins : (2 : Nat) < 3 := by decide
theorem witness_UnpackStep : FrameMem.wf (unpackingAt (some lastPos)).fb ∧ (unpackingAt (some lastPos)).phase = .unpacking ∧
    (unpackingAt (some lastPos)).cursor = some lastPos := by decide
theorem witness_CatalogStep : (catalogingAt (some lastPos)).phase = .cataloging ∧
    (catalogingAt (some lastPos)).cursor = some lastPos ∧ lastPos ≠ { y := 0, x := 0, i := 0, j := 0 } ∧
    (lastPos.i = 7 ∧ lastPos.j = 3) ∧ (catalogingAt (some firstPos)).cursor = some firstPos ∧
    firstPos = { y := 0, x := 0, i := 0, j := 0 } ∧ ¬ (firstPos.i = 7 ∧ firstPos.j = 3) := by decide
/-- The last digit of a key and the last column of cells. -/
theorem witness_CellKey : (7 : Nat) < 8 ∧ 3 < 4 ∧ 7 * 4 + 3 = 8 * 3 + 7 ∧ (39 : Nat) < 40 := by decide
/-- The last statement of vector V14's catalog phase (95_test_vectors.md): its entry 1 becomes the last digit of the key. -/
theorem test_catalog_step : digitAt (engineStep { catalogingAt (some lastPos) with fb := [(31999, 1)] }).latches.key 31 = 1 ∧
    (engineStep { catalogingAt (some lastPos) with fb := [(31999, 1)] }).cursor = none := by decide
/-- An absent key with room for one more entry, and a key that the first entry holds. -/
theorem witness_InsertOrCount : CatMem.wf results.cat ∧ ({ results with ncat := 999 }).ncat.toNat < 1000 ∧
    (∀ e, e < results.ncat.toNat → (catRead results.cat e).key ≠ 5) ∧ (catRead results.cat 0).key = 0 := by decide
theorem witness_EngineWrites : (catalogingAt none).phase ≠ .unpacking ∧ (unpackingAt none).phase ≠ .cataloging := by decide
theorem witness_InstructionsWrite :
    (∃ t, exec (.inPush 7 0) { ready with inCount := 10000 } = .next t) ∧ (0 : Nat) ≠ 10000 := ⟨⟨_, rfl⟩, by decide⟩
theorem witness_StepKeeps : Inv (catalogingAt none) ∧ ∃ t, step (catalogingAt none) = .next t :=
  ⟨inv_cataloging_end, ⟨_, rfl⟩⟩
theorem witness_Reachable : Reachable { State.reset with inputs := [.bus (.read 0)] } := Reachable.reset _
theorem witness_ReadsDoNotChange : Inv (unpackingAt none) ∧ (unpackingAt none).busy = true ∧
    (engineStep (unpackingAt none)).busy = true ∧ (∃ t, busStep (.write 6 1) (unpackingAt none) = .next t) ∧
    (0x1000 : WordAddr) ≠ 4 ∧ (0x1000 : WordAddr) ≠ 8 ∧ (0x1000 : WordAddr) ≠ 9 :=
  ⟨inv_unpacking_end, by decide, by decide, ⟨_, rfl⟩, by decide⟩
theorem witness_BusyCompletes : Inv (unpackingAt (some firstPos)) ∧ (unpackingAt (some firstPos)).busy = true :=
  ⟨inv_unpacking_first, by decide⟩
/-- For UnpackBuildsTheFramebuffer, LoadBuildsFramebufferHistogramAndCatalog and UnpackThenCatalogEqualsLoad. -/
theorem witness_Decoding : Inv ready ∧ ready.busy = false ∧ ready.inCount.toNat = 10001 ∧ ready.inOvf = false :=
  ⟨inv_ready, by decide⟩
/-- For the statements about CATALOG (R199, R202, R203, R204). -/
theorem witness_Cataloging : Inv framed ∧ framed.busy = false ∧ framed.fbValid = true := ⟨inv_framed, by decide⟩
theorem witness_PushRaces : Inv (catalogingAt none) ∧ (catalogingAt none).phase = .cataloging ∧
    (catalogingAt none).opLat = 1 ∧ (catalogingAt none).cursor = none := ⟨inv_cataloging_end, by decide⟩

end Sys2Proof.Tests
end

section
/-! SUPPORT. Proofs of the statements about the state (10_state.md): the register map, what no instruction writes, and the
invariant of the block over every step. -/

namespace Sys2Proof.Machine

/-! ### Writes of the registers (R26 to R31) -/

/-- R27: RST, as a field of the word and as its bit 0. -/
theorem extractLsb'_rst_eq_one (w : Word) : w.extractLsb' 0 1 = 1 ↔ w.getLsbD 0 = true := by
  constructor <;> intro h
  · simpa using congrArg (·.getLsbD 0) h
  · refine BitVec.eq_of_getLsbD_eq fun i hi => ?_
    obtain rfl : i = 0 := by omega
    simpa using h

theorem decodeInCtrl_rst {w : Word} (h : w.getLsbD 0 = true) :
    decodeInCtrl w = .ok (.inReset (w.extractLsb' 1 31)) :=
  if_pos ((extractLsb'_rst_eq_one w).2 h)

theorem decodeInCtrl_noRst {w : Word} (h : w.getLsbD 0 = false) : decodeInCtrl w = .error .inCtrlWithoutRst :=
  if_neg fun hw => Bool.false_ne_true (h.symm.trans ((extractLsb'_rst_eq_one w).1 hw))

/-- Settles O4, register by register of the address map; bit 0 of a write to IN_CTRL tells IN_RESET from no
instruction. -/
theorem registerWritesDecodeToTheirFields : Obligations.RegisterWritesDecodeToTheirFields := fun w =>
  ⟨decode_write_cfg w, decodeInCtrl_rst, decodeInCtrl_noRst, decode_write_inData w, decode_write_intEn w,
    decode_write_intStatus w⟩

/-! ### Reads of the registers (R21 to R33) -/

/-- Settles O29: word address 0 is ID, which answers a constant and takes no write. -/
theorem idReadsItsConstant : Obligations.IdReadsItsConstant := fun _ => ⟨rfl, fun _ => rfl⟩

/-- R32: CAT_SIZE is gated by CAT_VALID. -/
theorem toNat_readReg_catSize (s : State) :
    (readReg s .catSize).toNat = if s.catValid then s.ncat.toNat else 0 := by
  rw [readReg]
  split
  · exact BitVec.toNat_setWidth_of_le (by omega)
  · rfl

/-- Settles O30: a register's word is its field, zero-extended to the width of a word. -/
theorem registersReadTheirFields : Obligations.RegistersReadTheirFields := fun s =>
  have zeroExtended {n : Nat} (h : n ≤ 32) (x : BitVec n) : (x.setWidth 32).toNat = x.toNat :=
    BitVec.toNat_setWidth_of_le h
  ⟨rfl, rfl, rfl, zeroExtended (by omega) s.errCode, zeroExtended (by omega) s.cfgKeytab,
    zeroExtended (by omega) s.inCount, zeroExtended (by omega) s.intEn, zeroExtended (by omega) s.intStatus,
    toNat_readReg_catSize s⟩

/-- A flag put below the bits of `x` is bit 0, and moves the others up by one. -/
theorem getLsbD_append_ofBool {w : Nat} (x : BitVec w) (b : Bool) (n : Nat) :
    (x ++ BitVec.ofBool b).getLsbD n = if n = 0 then b else x.getLsbD (n - 1) := by
  rw [BitVec.getLsbD_append]
  cases n <;> simp

/-- R23: the six flags of the STATUS word, bit 0 first; the bits above them are reserved and read 0. -/
theorem getLsbD_statusWord (s : State) (n : Nat) :
    (statusWord s).getLsbD n =
      ([s.busy, s.fbValid, s.catValid, inFull s, s.inOvf, errFlag s][n]?).getD false := by
  simp only [statusWord, getLsbD_append_ofBool]
  rcases n with _ | _ | _ | _ | _ | _ | n
  all_goals simp

/-- Settles O31, bit by bit of the STATUS word. -/
theorem statusReadsItsBits : Obligations.StatusReadsItsBits := fun s =>
  have bits := getLsbD_statusWord s
  ⟨bits 0, bits 1, bits 2, bits 3, bits 4, bits 5, fun n hn =>
    (bits n).trans (by rw [List.getElem?_eq_none hn, Option.getD_none])⟩

/-- R33: some bit of two three-bit words is set in both. -/
theorem and_ne_zero_eq_or_bits : ∀ x y : BitVec 3, (x &&& y != 0) =
    ((x.getLsbD 0 && y.getLsbD 0) || (x.getLsbD 1 && y.getLsbD 1) || (x.getLsbD 2 && y.getLsbD 2)) := by
  decide

/-- Settles O27, by the bits of INT_STATUS and INT_EN. -/
theorem irqIsTheEnabledPendingBits : Obligations.IrqIsTheEnabledPendingBits := fun s =>
  and_ne_zero_eq_or_bits s.intStatus s.intEn

/-- Settles O37, by evaluation of the state after reset. -/
theorem resetStateHasTheSpecifiedValues : Obligations.ResetStateHasTheSpecifiedValues := by
  unfold Obligations.ResetStateHasTheSpecifiedValues
  decide

/-! ### What commands and register accesses leave alone (R35 to R38, R227) -/

/-- What every operation of the host but IN_PUSH and INT_ACK does to the memories and to pending interrupts: nothing. -/
structure KeepsMemoriesAndPending (s t : State) : Prop where
  img : t.img = s.img
  fb : t.fb = s.fb
  hist : t.hist = s.hist
  cat : t.cat = s.cat
  pending : ∀ n, s.intStatus.getLsbD n = true → t.intStatus.getLsbD n = true

/-- R131, R133: a set event drops no pending interrupt. -/
theorem getLsbD_intUpdate_set {old : BitVec 3} {n : Nat} (h : old.getLsbD n = true) (set : BitVec 3) :
    (intUpdate old set 0#3).getLsbD n = true := by
  rw [intUpdate_set, BitVec.getLsbD_or, h, Bool.true_or]

theorem refuse_keeps (s : State) : KeepsMemoriesAndPending s (refuse s) :=
  ⟨rfl, rfl, rfl, rfl, fun _ h => getLsbD_intUpdate_set h intViol⟩

theorem complete_keeps (c : ErrCode) (s : State) : KeepsMemoriesAndPending s (complete c s) :=
  ⟨rfl, rfl, rfl, rfl, fun _ h => getLsbD_intUpdate_set h (completionBits c)⟩

theorem start_keeps (op : BitVec 4) (ph : Phase) (s : State) : KeepsMemoriesAndPending s (start op ph s) :=
  ⟨rfl, rfl, rfl, rfl, fun _ h => h⟩

/-- An operation on the registers alone: the memories and INT_STATUS are the same. -/
theorem KeepsMemoriesAndPending.of_eq {s t : State}
    (h : (t.img, t.fb, t.hist, t.cat, t.intStatus) = (s.img, s.fb, s.hist, s.cat, s.intStatus)) :
    KeepsMemoriesAndPending s t := by
  simp only [Prod.mk.injEq] at h
  obtain ⟨img, fb, hist, cat, int⟩ := h
  exact ⟨img, fb, hist, cat, fun _ hn => int ▸ hn⟩

/-- Two operations, the later one first. -/
theorem KeepsMemoriesAndPending.after {s t u : State} (h' : KeepsMemoriesAndPending t u)
    (h : KeepsMemoriesAndPending s t) : KeepsMemoriesAndPending s u :=
  ⟨h'.img.trans h.img, h'.fb.trans h.fb, h'.hist.trans h.hist, h'.cat.trans h.cat,
    fun n hn => h'.pending n (h.pending n hn)⟩

theorem startDecoding_keeps (op : BitVec 4) (s : State) : KeepsMemoriesAndPending s (startDecoding op s) := by
  rcases startDecoding_cases op s with ⟨_, e⟩ | ⟨_, e⟩ <;> rw [e]
  · exact (start_keeps _ _ _).after (.of_eq rfl)
  · exact (complete_keeps _ _).after (.of_eq rfl)

theorem startCatalog_keeps (s : State) : KeepsMemoriesAndPending s (startCatalog s) := by
  rcases startCatalog_cases s with ⟨_, e⟩ | ⟨_, e⟩ <;> rw [e]
  · exact (start_keeps _ _ _).after (.of_eq rfl)
  · exact complete_keeps _ _

theorem clearResults_keeps (s : State) : KeepsMemoriesAndPending s (clearResults s) :=
  (complete_keeps _ _).after (.of_eq rfl)

/-- R130: an acceptance adds nothing to its body but the clearing of ERR_CODE. -/
theorem accept_keeps {body : State → State} (h : ∀ s, KeepsMemoriesAndPending s (body s)) (s : State) :
    KeepsMemoriesAndPending s (accept body s) := by
  rcases accept_cases body s with ⟨_, e⟩ | ⟨_, e⟩ <;> rw [e]
  · exact refuse_keeps s
  · exact (h _).after (.of_eq rfl)

theorem resetInput_keeps (s : State) : KeepsMemoriesAndPending s (resetInput s) := by
  rcases resetInput_cases s with ⟨_, e⟩ | ⟨_, e⟩ <;> rw [e]
  · exact refuse_keeps s
  · exact .of_eq rfl

theorem runRejected_keeps (r : Reject) (s : State) : KeepsMemoriesAndPending s (runRejected r s) := by
  by_cases hr : r = .illegalCommand
  · rw [hr]; exact accept_keeps (complete_keeps _) s
  · rw [runRejected_eq hr]; exact .of_eq rfl

/-- What an instruction can do to the memories and to pending interrupts: nothing, or it is an IN_PUSH or an INT_ACK. -/
theorem exec_keeps_or {i : Instr} {s t : State} (h : exec i s = .next t) :
    KeepsMemoriesAndPending s t ∨
      (∃ byte ignored, i = .inPush byte ignored ∧ t = pushByte byte s) ∨
      (∃ clr ignored, i = .intAck clr ignored ∧ t = { s with intStatus := intUpdate s.intStatus 0#3 clr }) := by
  rcases exec_cases i s with ⟨_, e⟩ | ⟨_, e⟩ | ⟨_, e⟩ | ⟨_, e⟩ | ⟨_, e⟩ | ⟨_, _, e⟩ | ⟨_, _, hi, e⟩ | ⟨_, _, _, e⟩ |
    ⟨_, _, _, _, _, e⟩ | ⟨_, _, hi, e⟩ | ⟨_, _, e⟩ <;> cases h.symm.trans e
  · exact .inl (accept_keeps (complete_keeps _) s)
  · exact .inl (accept_keeps (startDecoding_keeps _) s)
  · exact .inl (accept_keeps (startDecoding_keeps _) s)
  · exact .inl (accept_keeps startCatalog_keeps s)
  · exact .inl (accept_keeps clearResults_keeps s)
  · exact .inl (resetInput_keeps s)
  · exact .inr (.inl ⟨_, _, hi, rfl⟩)
  · exact .inl (.of_eq rfl)
  · exact .inl (.of_eq rfl)
  · exact .inr (.inr ⟨_, _, hi, rfl⟩)
  · exact .inl (.of_eq rfl)

/-- Settles O46: IN_PUSH is the one instruction that writes a memory, and it writes IMG at IN_COUNT when it is taken. -/
theorem instructionsWriteNoResultMemory : Obligations.InstructionsWriteNoResultMemory := by
  intro i s t h
  rcases exec_keeps_or h with hk | ⟨byte, ignored, hi, rfl⟩ | ⟨_, _, _, rfl⟩
  · exact ⟨hk.fb, hk.hist, hk.cat, fun a _ => by rw [hk.img]⟩
  · rcases pushByte_cases byte s with ⟨_, e⟩ | ⟨hb, hlt, e⟩ | ⟨_, _, e⟩ <;> rw [e]
    · exact ⟨rfl, rfl, rfl, fun _ _ => rfl⟩
    · refine ⟨rfl, rfl, rfl, fun a ha => storeRead_storeWrite_ne ?_⟩
      rcases ha byte ignored hi with hb' | hge | hne
      · exact absurd (hb'.symm.trans hb) (by decide)
      · exact absurd hlt (Nat.not_lt.2 hge)
      · exact hne
    · exact ⟨rfl, rfl, rfl, fun _ _ => rfl⟩
  · exact ⟨rfl, rfl, rfl, fun _ _ => rfl⟩

/-! ### Pending interrupts over a step (R31, R227) -/

/-- What a step can do, by the move it takes. -/
theorem step_cases {s t : State} (h : step s = .next t) :
    (s.inputs = [] ∧ t = engineStep s) ∨
      (∃ txn rest, s.inputs = .bus txn :: rest ∧ busStep txn { s with inputs := rest } = .next t) ∨
      (∃ work rest, s.inputs = .engine work :: rest ∧ t = engineRun work { s with inputs := rest }) ∨
      (∃ rest, s.inputs = .reset :: rest ∧ t = resetBlock { s with inputs := rest }) := by
  cases hin : s.inputs with
  | nil => cases (step_waiting hin).symm.trans h; exact .inl ⟨rfl, rfl⟩
  | cons move rest =>
    cases move with
    | bus txn => exact .inr (.inl ⟨txn, rest, rfl, by rw [← h, step, hin]⟩)
    | engine work => cases (step_engine hin).symm.trans h; exact .inr (.inr (.inl ⟨work, rest, rfl, rfl⟩))
    | reset => cases (step_reset hin).symm.trans h; exact .inr (.inr (.inr ⟨rest, rfl, rfl⟩))

theorem exec_pending {i : Instr} {s t : State} {n : Nat} (h : exec i s = .next t) (hn : s.intStatus.getLsbD n = true)
    (hack : ∀ clr ignored, i = .intAck clr ignored → clr.getLsbD n = false) : t.intStatus.getLsbD n = true := by
  rcases exec_keeps_or h with hk | ⟨byte, _, _, rfl⟩ | ⟨clr, ignored, hi, rfl⟩
  · exact hk.pending n hn
  · rcases pushByte_cases byte s with ⟨_, e⟩ | ⟨_, _, e⟩ | ⟨_, _, e⟩ <;> rw [e]
    · exact getLsbD_intUpdate_set hn intViol
    · exact hn
    · exact hn
  · have hlt : n < 3 := BitVec.lt_of_getLsbD hn
    rw [intUpdate_clear, BitVec.getLsbD_and, BitVec.getLsbD_not, hn, hack clr ignored hi]
    simpa using hlt

theorem busStep_pending {txn : HostTxn} {s t : State} {n : Nat} (h : busStep txn s = .next t)
    (hn : s.intStatus.getLsbD n = true)
    (hack : ∀ clr ignored, decode txn = .ok (.intAck clr ignored) → clr.getLsbD n = false) :
    t.intStatus.getLsbD n = true := by
  unfold busStep at h
  split at h
  · next i hd => exact exec_pending h hn fun clr ignored hi => hack clr ignored (hi ▸ hd)
  · next r _ => cases h; exact (runRejected_keeps r s).pending n hn

/-- R200: a statement of the catalog phase writes nothing but the catalog, the histogram, the latches and the cursor. -/
theorem sameButCatalog_catalogStatement (p : Pos) (s : State) : SameButCatalog s (catalogStatement p s) := by
  rw [catalogStatement_eq_scanBody]
  split
  · constructor
    rw [(sameButCatalog_scanBody p (clearCounts s)).rest]; rfl
  · exact sameButCatalog_scanBody p s

theorem engineStep_pending {s : State} {n : Nat} (hn : s.intStatus.getLsbD n = true) :
    (engineStep s).intStatus.getLsbD n = true := by
  rcases engineStep_cases s with ⟨_, e⟩ | ⟨p, _, _, e⟩ | ⟨_, _, e⟩ | ⟨p, _, _, e⟩ | ⟨_, _, e⟩ <;> rw [e]
  · exact hn
  · exact hn
  · rcases endUnpack_cases s with ⟨_, e⟩ | ⟨_, e⟩ <;> rw [e]
    · exact hn
    · exact getLsbD_intUpdate_set hn _
  · rw [(sameButCatalog_catalogStatement p s).rest]; exact hn
  · rcases endCatalog_cases s with ⟨_, e⟩ | ⟨_, e⟩ <;> rw [e] <;> exact getLsbD_intUpdate_set hn _

/-- Settles O26, by the move the step takes. -/
theorem interruptBitsStayUntilAcknowledged : Obligations.InterruptBitsStayUntilAcknowledged := by
  intro s t n h hn hreset hack
  rcases step_cases h with ⟨_, rfl⟩ | ⟨txn, rest, hin, hbus⟩ | ⟨work, _, _, rfl⟩ | ⟨rest, hin, _⟩
  · exact engineStep_pending hn
  · exact busStep_pending hbus hn fun clr ignored => hack txn rest clr ignored hin
  · exact engineRun_keeps (P := (·.intStatus.getLsbD n = true)) (fun _ => engineStep_pending) work hn
  · exact absurd hin (hreset rest)

/-! ### The invariant: what each operation needs and keeps (R24, R25, R29, R38, R39) -/

/-- The part of the invariant that does not speak of the engine: the memories' form and the ranges of the counters. -/
structure DataInv (s : State) : Prop where
  imgWf : Memory.wf s.img
  fbWf : FrameMem.wf s.fb
  catWf : CatMem.wf s.cat
  inOvf_full : s.inOvf = true → s.inCount.toNat = Config.imgLen
  inCount_le : s.inCount.toNat ≤ Config.imgLen
  ncat_le : s.ncat.toNat ≤ Config.catMax

theorem Inv.data {s : State} (h : Inv s) : DataInv s := { h with }

/-- For an idle block the invariant comes down to its data, R24's first line and the code. -/
theorem inv_of_idle {s : State} (hd : DataInv s) (hb : s.busy = false) (hp : s.phase = .idle)
    (hv : s.catValid = true → s.fbValid = true)
    (he : s.errCode = 0 ∨ s.errCode = 1 ∨ s.errCode = 3 ∨ s.errCode = 4) : Inv s := by
  have notBusy {P : Prop} (h : s.busy = true) : P := absurd (hb.symm.trans h) Bool.false_ne_true
  have notPhase {P : Prop} {ph : Phase} (hne : Phase.idle ≠ ph) (h : s.phase = ph) : P := absurd (hp.symm.trans h) hne
  exact { hd with
    catValid_fbValid := hv
    busy_catValid := notBusy
    busy_fbValid := notBusy
    errCode_legal := he
    idle_iff := ⟨fun _ => hb, fun _ => hp⟩
    busy_errCode := notBusy
    unpacking_op := notPhase (by decide)
    cataloging_op := notPhase (by decide)
    catalog_fbValid := notBusy
    busy_inputOk := notBusy
    cataloging_ncat := notPhase (by decide) }

/-- R220: the codes that a completion records are the legal ones. -/
theorem errCode_bits_legal (c : ErrCode) : c.bits = 0 ∨ c.bits = 1 ∨ c.bits = 3 ∨ c.bits = 4 := by
  cases c <;> decide

/-- R131: a completion meets the invariant when the data do and R24's first line holds. -/
theorem inv_complete (c : ErrCode) {s : State} (hd : DataInv s) (hv : s.catValid = true → s.fbValid = true) :
    Inv (complete c s) :=
  inv_of_idle { hd with } rfl rfl hv (errCode_bits_legal c)

/-- U2: of an idle block the invariant says nothing about OP_LAT, K_LAT, the cursor and the latches. -/
theorem inv_drawIdle {s : State} (h : Inv s) (hb : s.busy = false) : Inv (drawIdle s) :=
  inv_of_idle { h.data with } hb (h.idle_iff.2 hb) h.catValid_fbValid h.errCode_legal

/-- The invariant does not speak of CFG, INT_EN, INT_STATUS, the moves to come and the host's last answer. -/
theorem Inv.setUnread {s : State} (h : Inv s) (keytab : BitVec 1) (en int : BitVec 3) (moves : List Input)
    (answer : Word) :
    Inv { s with cfgKeytab := keytab, intEn := en, intStatus := int, inputs := moves, readData := answer } :=
  { h with }

theorem inv_refuse {s : State} (h : Inv s) : Inv (refuse s) := h.setUnread _ _ _ _ _

theorem inv_reset : Inv State.reset :=
  inv_of_idle ⟨storeWf_nil, storeWf_nil, storeWf_nil, by decide, by decide, by decide⟩ rfl rfl (by decide) (.inl rfl)

/-- R250: whatever the memories hold after a reset event, they are in canonical form. -/
theorem inv_resetBlock (s : State) : Inv (resetBlock s) :=
  inv_of_idle ⟨storeOf_wf _, storeOf_wf _, storeOf_wf _, by simp, by simp, by simp⟩ rfl rfl (by simp) (.inl rfl)

/-- Settles O47: the block is idle, its memories list nothing and its counters are 0. -/
theorem resetMeetsTheInvariant : Obligations.ResetMeetsTheInvariant := inv_reset

/-! ### The invariant over host transactions -/

/-- R130: an acceptance keeps the invariant when its body keeps it on an idle block with ERR_CODE = 0. -/
theorem inv_accept {body : State → State} {s : State} (h : Inv s)
    (hbody : ∀ s, Inv s → s.busy = false → s.errCode = 0 → Inv (body s)) : Inv (accept body s) := by
  rcases accept_cases body s with ⟨_, e⟩ | ⟨hb, e⟩ <;> rw [e]
  · exact inv_refuse h
  · exact hbody _ (inv_of_idle { h.data with } hb (h.idle_iff.2 hb) h.catValid_fbValid (.inl rfl)) hb rfl

theorem inv_startDecoding {op : BitVec 4} (hop : op = opLoad ∨ op = opUnpack) {s : State} (h : Inv s)
    (he : s.errCode = 0) : Inv (startDecoding op s) := by
  have notCatalog : op ≠ opCatalog := by rcases hop with rfl | rfl <;> decide
  rcases startDecoding_cases op s with ⟨hok, e⟩ | ⟨_, e⟩ <;> rw [e]
  · exact { h.data with
      catValid_fbValid := nofun
      busy_catValid := fun _ => rfl
      busy_fbValid := fun _ _ => rfl
      errCode_legal := .inl he
      idle_iff := by simp
      busy_errCode := fun _ => he
      unpacking_op := fun _ => hop
      cataloging_op := nofun
      catalog_fbValid := fun _ hc => absurd hc notCatalog
      busy_inputOk := fun _ _ => hok
      cataloging_ncat := nofun }
  · exact inv_complete _ { h.data with } nofun

theorem inv_startCatalog {s : State} (h : Inv s) (he : s.errCode = 0) : Inv (startCatalog s) := by
  have notDecoding : ¬ (opCatalog = opLoad ∨ opCatalog = opUnpack) := by decide
  rcases startCatalog_cases s with ⟨hfb, e⟩ | ⟨_, e⟩ <;> rw [e]
  · exact { h.data with
      catValid_fbValid := nofun
      busy_catValid := fun _ => rfl
      busy_fbValid := fun _ ho => absurd ho notDecoding
      errCode_legal := .inl he
      idle_iff := by simp
      busy_errCode := fun _ => he
      unpacking_op := nofun
      cataloging_op := fun _ => .inr rfl
      catalog_fbValid := fun _ _ => hfb
      busy_inputOk := fun _ ho => absurd ho notDecoding
      cataloging_ncat := fun _ p hp hne => absurd (Option.some.inj hp).symm hne }
  · exact inv_complete _ h.data h.catValid_fbValid

theorem inv_clearResults {s : State} (h : Inv s) : Inv (clearResults s) :=
  inv_complete _ { h.data with ncat_le := Nat.zero_le _ } nofun

theorem inv_resetInput {s : State} (h : Inv s) : Inv (resetInput s) := by
  rcases resetInput_cases s with ⟨_, e⟩ | ⟨hb, e⟩ <;> rw [e]
  · exact inv_refuse h
  · exact inv_of_idle { h.data with inOvf_full := nofun, inCount_le := Nat.zero_le _ } hb (h.idle_iff.2 hb)
      h.catValid_fbValid h.errCode_legal

/-- R122: a byte that is taken finds room in IMG, and IN_COUNT does not wrap; IN_OVF rises only on a full input. -/
theorem inv_pushByte (v : Byte) {s : State} (h : Inv s) : Inv (pushByte v s) := by
  rcases pushByte_cases v s with ⟨_, e⟩ | ⟨hb, hlt, e⟩ | ⟨hb, hge, e⟩ <;> rw [e]
  · exact inv_refuse h
  · have hcount : (s.inCount + 1).toNat = s.inCount.toNat + 1 := by
      simp only [Config.imgLen] at hlt
      simp [BitVec.toNat_add]; omega
    exact inv_of_idle { h.data with
      imgWf := imgWrite_wf h.imgWf hlt
      inOvf_full := fun ho => absurd (h.inOvf_full ho) (Nat.ne_of_lt hlt)
      inCount_le := hcount ▸ hlt } hb (h.idle_iff.2 hb) h.catValid_fbValid h.errCode_legal
  · exact inv_of_idle { h.data with inOvf_full := fun _ => Nat.le_antisymm h.inCount_le hge } hb (h.idle_iff.2 hb)
      h.catValid_fbValid h.errCode_legal

theorem inv_exec {i : Instr} {s t : State} (h : Inv s) (he : exec i s = .next t) : Inv t := by
  rcases exec_cases i s with ⟨_, e⟩ | ⟨_, e⟩ | ⟨_, e⟩ | ⟨_, e⟩ | ⟨_, e⟩ | ⟨_, _, e⟩ | ⟨byte, _, _, e⟩ | ⟨_, _, _, e⟩ |
    ⟨_, _, _, _, _, e⟩ | ⟨_, _, _, e⟩ | ⟨_, _, e⟩ <;> cases he.symm.trans e
  · exact inv_accept h fun _ h _ _ => inv_complete _ h.data h.catValid_fbValid
  · exact inv_accept h fun _ h _ => inv_startDecoding (.inl rfl) h
  · exact inv_accept h fun _ h _ => inv_startDecoding (.inr rfl) h
  · exact inv_accept h fun _ h _ => inv_startCatalog h
  · exact inv_accept h fun _ h _ _ => inv_clearResults h
  · exact inv_resetInput h
  · exact inv_pushByte byte h
  · exact h.setUnread _ _ _ _ _
  · exact h.setUnread _ _ _ _ _
  · exact h.setUnread _ _ _ _ _
  · exact h.setUnread _ _ _ _ _

theorem inv_runRejected (r : Reject) {s : State} (h : Inv s) : Inv (runRejected r s) := by
  by_cases hr : r = .illegalCommand
  · rw [hr]; exact inv_accept h fun _ h _ _ => inv_complete _ h.data h.catValid_fbValid
  · rw [runRejected_eq hr]; exact h

theorem inv_busStep {txn : HostTxn} {s t : State} (h : Inv s) (he : busStep txn s = .next t) : Inv t := by
  unfold busStep at he
  split at he
  · exact inv_exec h he
  · cases he; exact inv_runRejected _ h

/-! ### The invariant over engine steps -/

/-- R39: an engine that is in a phase is BUSY. -/
theorem Inv.busy_of_phase {s : State} (h : Inv s) (hp : s.phase ≠ .idle) : s.busy = true := by
  rw [← Bool.not_eq_false]; exact fun hb => hp (h.idle_iff.2 hb)

theorem inv_unpackStatement (p : Pos) {s : State} (h : Inv s) (hp : s.phase = .unpacking) :
    Inv (unpackStatement p s) :=
  { h with
    fbWf := fbWrite_wf h.fbWf (fbAddr_lt p)
    cataloging_ncat := fun hc => absurd (hp.symm.trans hc) (by decide) }

theorem inv_endUnpack {s : State} (h : Inv s) (hp : s.phase = .unpacking) : Inv (endUnpack s) := by
  have hb : s.busy = true := h.busy_of_phase (by simp [hp])
  rcases endUnpack_cases s with ⟨hop, e⟩ | ⟨_, e⟩ <;> rw [e]
  · exact { h with
      idle_iff := by simp [hb]
      unpacking_op := nofun
      cataloging_op := fun _ => .inl hop
      cataloging_ncat := fun _ p hc hne => absurd (Option.some.inj hc).symm hne }
  · exact inv_drawIdle (inv_complete _ { h.data with } fun _ => rfl) rfl

/-- R201: a completion of the catalog phase raises CAT_VALID over a valid framebuffer, LOAD's or the one CATALOG found. -/
theorem inv_endCatalog {s : State} (h : Inv s) (hp : s.phase = .cataloging) : Inv (endCatalog s) := by
  rcases endCatalog_cases s with ⟨_, e⟩ | ⟨hop, e⟩ <;> rw [e]
  · exact inv_drawIdle (inv_complete _ { h.data with } fun _ => rfl) rfl
  · have hfb := h.catalog_fbValid (h.busy_of_phase (by simp [hp])) ((h.cataloging_op hp).resolve_left hop)
    exact inv_drawIdle (inv_complete _ { h.data with } fun _ => hfb) rfl

/-- R198: insert-or-count adds at most one entry, and writes below the bound it keeps. -/
theorem insertOrCount_bound (key : Key) {s : State} {m : Nat} (hw : CatMem.wf s.cat) (hn : s.ncat.toNat ≤ m)
    (hm : m < Config.catMax) :
    CatMem.wf (insertOrCount key s).cat ∧ (insertOrCount key s).ncat.toNat ≤ m + 1 := by
  rcases insertOrCount_cases key s with ⟨_, e⟩ | ⟨_, he, _, _, e⟩ <;> rw [e]
  · refine ⟨catWrite_wf hw (by omega), ?_⟩
    simp only [Config.catMax] at hm
    simp [BitVec.toNat_add]; omega
  · exact ⟨catWrite_wf hw (by omega), by simp; omega⟩

/-- R198, R200: after the statement at `p` the catalog holds at most one entry for each cell that is complete. -/
theorem scanBody_bound (p : Pos) {s : State} (hw : CatMem.wf s.cat) (hn : s.ncat.toNat ≤ cellIndex p) :
    CatMem.wf (scanBody p s).cat ∧ (scanBody p s).ncat.toNat ≤ (posIndex p + 1) / 32 := by
  have := posIndex_lt p
  obtain ⟨-, -, hi, hj, hcell⟩ := posIndex_fields p
  unfold scanBody
  split
  · next hlast =>
    have hcells : (posIndex p + 1) / 32 = cellIndex p + 1 := by
      rw [hlast.1] at hi; rw [hlast.2] at hj
      simp at hi hj; omega
    rw [hcells]
    exact insertOrCount_bound _ (s := scanEntry p s) hw hn (cellIndex_lt p)
  · exact ⟨hw, by simp; omega⟩

/-- R200: a statement of the catalog phase keeps the invariant when the catalog it leaves is within the cells done. -/
theorem inv_catalogStatement (p : Pos) {s : State} (h : Inv s) (hp : s.phase = .cataloging)
    (hc : s.cursor = some p) : Inv (catalogStatement p s) := by
  have hbound : CatMem.wf (catalogStatement p s).cat ∧ (catalogStatement p s).ncat.toNat ≤ (posIndex p + 1) / 32 := by
    rw [catalogStatement_eq_scanBody]
    split
    · exact scanBody_bound p (s := clearCounts s) h.catWf (Nat.zero_le _)
    · next hne => exact scanBody_bound p h.catWf (h.cataloging_ncat hp p hc hne)
  have hcursor : (catalogStatement p s).cursor = nextPos p := rfl
  obtain ⟨hrest⟩ := sameButCatalog_catalogStatement p s
  generalize catalogStatement p s = t at hbound hcursor hrest
  obtain ⟨hwf, hle⟩ := hbound
  have := posIndex_lt p
  rw [hrest]
  exact { h with
    catWf := hwf
    ncat_le := hle.trans (by simp only [Config.catMax]; omega)
    cataloging_ncat := fun _ q hq _ => by
      rcases nextPos_cases p with ⟨q', hq', hidx⟩ | ⟨hnone, _⟩
      · obtain rfl : q' = q := Option.some.inj (hq'.symm.trans (hcursor.symm.trans hq))
        obtain ⟨-, -, -, -, hcell⟩ := posIndex_fields q'
        rw [hcell, hidx]; exact hle
      · exact nomatch hnone.symm.trans (hcursor.symm.trans hq) }

theorem inv_engineStep {s : State} (h : Inv s) : Inv (engineStep s) := by
  rcases engineStep_cases s with ⟨_, e⟩ | ⟨p, hp, _, e⟩ | ⟨hp, _, e⟩ | ⟨p, hp, hc, e⟩ | ⟨hp, _, e⟩ <;> rw [e]
  · exact h
  · exact inv_unpackStatement p h hp
  · exact inv_endUnpack h hp
  · exact inv_catalogStatement p h hp hc
  · exact inv_endCatalog h hp

/-! ### The invariant over steps and runs -/

/-- Settles O48, by the move the step takes. -/
theorem stepKeepsTheInvariant : Obligations.StepKeepsTheInvariant := by
  intro s t h hst
  have withoutMove (rest : List Input) : Inv { s with inputs := rest } := h.setUnread _ _ _ _ _
  rcases step_cases hst with ⟨_, rfl⟩ | ⟨_, rest, _, hbus⟩ | ⟨work, rest, _, rfl⟩ | ⟨_, _, rfl⟩
  · exact inv_engineStep h
  · exact inv_busStep (withoutMove rest) hbus
  · exact engineRun_keeps (P := Inv) (fun _ => inv_engineStep) work (withoutMove rest)
  · exact inv_resetBlock _

/-- The induction over a run, packaged once: what reset gives and every step keeps holds in every reachable state. -/
theorem inv_of_reachable {s : State} (h : Reachable s) : Inv s := by
  induction h with
  | reset moves => exact inv_reset.setUnread _ _ _ _ _
  | arrive s moves _ ih => exact ih.setUnread _ _ _ _ _
  | step s t _ hst ih => exact stepKeepsTheInvariant s t ih hst

/-- Settles O49: every reachable state meets the invariant of the block, which holds R24's four lines. -/
theorem statusInvariantsHoldInReachableStates : Obligations.StatusInvariantsHoldInReachableStates := fun _ hr =>
  have h := inv_of_reachable hr
  ⟨h.catValid_fbValid, h.busy_catValid, h.busy_fbValid, h.inOvf_full⟩

end Sys2Proof.Machine
end

section
/-! SUPPORT. Proofs of the statements about the memory map (20_memory.md): the step and its queue, the locations that take
no write, the windows, and what a host can see of a running command. -/

namespace Sys2Proof

/-! ### The registers' addresses (R20) -/

/-- R20: the word address of a register. -/
def regAddr : Reg → WordAddr
  | .id => 0
  | .cmd => 1
  | .status => 2
  | .errCode => 3
  | .cfg => 4
  | .inCtrl => 5
  | .inData => 6
  | .inCount => 7
  | .intEn => 8
  | .intStatus => 9
  | .catSize => 10

theorem regAt_eq_some {n : Nat} {r : Reg} (h : regAt n = some r) : n = (regAddr r).toNat := by
  unfold regAt at h
  split at h <;> cases h <;> rfl

/-- R61: word addresses 64 and up name no register. -/
theorem locate_ne_reg {a : WordAddr} (h : ¬ a.toNat < 0x40) (r : Reg) : locate a ≠ .reg r := by
  simp only [locate, h, if_false]
  repeat' split
  all_goals nofun

/-- R20, R61: a register stands at its own address and at no other. -/
theorem eq_regAddr_of_locate {a : WordAddr} {r : Reg} (h : locate a = .reg r) : a = regAddr r := by
  by_cases hlt : a.toNat < 0x40
  · rw [locate_lt_64 hlt] at h
    cases hr : regAt a.toNat with
    | none => rw [hr] at h; cases h
    | some r' =>
      rw [hr] at h; cases h
      exact BitVec.eq_of_toNat_eq (regAt_eq_some hr)
  · exact absurd h (locate_ne_reg hlt r)

/-- R62: a write away from the six writable registers is rejected, and not as an illegal command. -/
theorem decode_write_not_writable {a : WordAddr} (h1 : a ≠ 1) (h4 : a ≠ 4) (h5 : a ≠ 5) (h6 : a ≠ 6) (h8 : a ≠ 8)
    (h9 : a ≠ 9) (w : Word) : ∃ r, decode (.write a w) = .error r ∧ r ≠ .illegalCommand := by
  simp only [decode]
  cases hl : locate a with
  | reg r =>
    have ha := eq_regAddr_of_locate hl
    cases r with
    | cmd => exact absurd ha h1
    | cfg => exact absurd ha h4
    | inCtrl => exact absurd ha h5
    | inData => exact absurd ha h6
    | intEn => exact absurd ha h8
    | intStatus => exact absurd ha h9
    | id | status | errCode | inCount | catSize => exact ⟨_, rfl, nofun⟩
  | hist c | img k | fb k | cat e q | reserved => exact ⟨_, rfl, nofun⟩

/-- R60, R68: the byte offset that a read's word address stands for names that word. -/
theorem wordAddr_append_zero (a : WordAddr) : wordAddr (a ++ (0 : BitVec 2)) = a := by
  rw [wordAddr, BitVec.extractLsb'_append_eq_left]

end Sys2Proof

namespace Sys2Proof.Machine

/-! ### Host transactions and the queue (R60, R132, R250) -/

theorem busStep_ok {txn : HostTxn} {i : Instr} (h : decode txn = .ok i) (s : State) : busStep txn s = exec i s := by
  simp only [busStep, h]

/-- R62, R120: a transaction that is rejected other than as an illegal command changes nothing. -/
theorem busStep_error {txn : HostTxn} {r : Reject} (h : decode txn = .error r) (hr : r ≠ .illegalCommand)
    (s : State) : busStep txn s = .next s := by
  simp only [busStep, h, runRejected_eq hr]

/-- R125: a read answers its location's word. -/
theorem busStep_read (a : WordAddr) (s : State) : busStep (.read a) s = .next { s with readData := hostRead s a } := by
  show execRd (a ++ (0 : BitVec 2)) s = _
  rw [execRd, wordAddr_append_zero]

theorem step_bus {s : State} {txn : HostTxn} {rest : List Input} (h : s.inputs = .bus txn :: rest) :
    step s = busStep txn { s with inputs := rest } := by
  rw [step, h]

/-- Settles O6: the step takes the transaction off the queue, and the decoder's answer picks the instruction. -/
theorem stepRunsTheDecodedInstruction : Obligations.StepRunsTheDecodedInstruction := fun _ _ _ _ hin hd =>
  (step_bus hin).trans (busStep_ok hd _)

/-- Settles O7, move by move of the queue. -/
theorem stepTakesTheNextMoveOrAnEngineStep : Obligations.StepTakesTheNextMoveOrAnEngineStep := fun _ =>
  ⟨fun _ _ => step_bus, fun _ _ => step_engine, fun _ => step_reset, step_waiting,
    fun hin hp => (step_waiting hin).trans (congrArg _ (engineStep_idle hp))⟩

/-! ### Locations that take no write, and reserved addresses (R34, R62) -/

theorem hostRead_of_locate {a : WordAddr} {l : Loc} (h : locate a = l) (s : State) : hostRead s a = readLoc s l :=
  congrArg (readLoc s) h

/-- Settles O11: a write to such a location is rejected with no effect, and the address map has nothing behind a reserved
address. -/
theorem reservedAndReadOnlyLocationsIgnoreWrites : Obligations.ReservedAndReadOnlyLocationsIgnoreWrites := by
  constructor
  · intro s a w h1 h4 h5 h6 h8 h9
    obtain ⟨r, hd, hr⟩ := decode_write_not_writable h1 h4 h5 h6 h8 h9 w
    exact busStep_error hd hr s
  · intro s a h
    have hread : hostRead s a = 0 := hostRead_of_locate (locate_reserved h) s
    exact ⟨hread, by rw [busStep_read, hread]⟩

/-! ### The windows (R63 to R66) -/

/-- Settles O32: the address map, then byte `t` of the packed word. -/
theorem imgWindowReadsPushedBytes : Obligations.ImgWindowReadsPushedBytes := by
  intro s a k t hk ht ha
  rw [hostRead_of_locate (locate_img hk ha), readLoc, imgWindow, extract_pack4 _ ht, imgByte]

/-- Settles O33, by the address map. -/
theorem histWindowReadsCountersWhenValid : Obligations.HistWindowReadsCountersWhenValid := fun s _ c ha =>
  hostRead_of_locate (locate_hist c.isLt ha) s

/-- Settles O34: the address map, the gate FB_VALID, then nibble `t` of the packed word. -/
theorem fbWindowReadsEntriesWhenValid : Obligations.FbWindowReadsEntriesWhenValid := by
  intro s a w t hw ht ha
  rw [hostRead_of_locate (locate_fb hw ha), readLoc, fbWindow]
  split
  · exact extract_pack8 _ ht
  · exact BitVec.extractLsb'_zero

/-- R66: a catalog entry that is exposed. -/
theorem catWindow_exposed {s : State} {e : Nat} (hv : s.catValid = true) (he : e < s.ncat.toNat) (q : Fin 8) :
    catWindow s e q =
      if q.val < 4 then keyWord (catRead s.cat e).key q.val
      else if q.val = 4 then (catRead s.cat e).count
      else 0 :=
  if_pos ⟨hv, he⟩

/-- Settles O35: the address map, the gate, then the three kinds of words of an entry. -/
theorem catWindowReadsEntriesWhenValid : Obligations.CatWindowReadsEntriesWhenValid := by
  intro s a e q he hq ha
  rw [hostRead_of_locate (locate_cat he hq ha), readLoc]
  refine ⟨fun hv hn => ?_, fun hn => if_neg hn⟩
  rw [catWindow_exposed hv hn]
  refine ⟨fun t hq4 ht => ?_, fun hq4 => ?_, fun hq5 => ?_⟩
  · rw [if_pos hq4]
    exact extract_keyWord _ hq4 ht
  · rw [if_neg (show ¬ q < 4 by omega), if_pos hq4]
  · rw [if_neg (show ¬ q < 4 by omega), if_neg (show ¬ q = 4 by omega)]

/-! ### The bridge (R61, R68) -/

theorem bridgeAddr_eq_none {base b : Nat} (h : ¬ (base ≤ b ∧ b < base + Config.hostSpace)) :
    bridgeAddr base b = none :=
  if_neg h

/-- R68: byte offset `off` within the 128 KiB is a byte of word `off / 4`. -/
theorem bridgeAddr_add {base off : Nat} (h : off < Config.hostSpace) :
    bridgeAddr base (base + off) = some (BitVec.ofNat 15 (off / 4)) := by
  rw [bridgeAddr, if_pos ⟨by omega, by omega⟩, Nat.add_sub_cancel_left]

/-- Settles O36: the 128 KiB are 2^15 words, so the word address is not cut. -/
theorem bridgeDropsTheByteBits : Obligations.BridgeDropsTheByteBits := fun base off =>
  ⟨fun h => ⟨_, bridgeAddr_add h, by rw [BitVec.toNat_ofNat]; omega⟩,
    fun h => bridgeAddr_eq_none (by simp only [Config.hostSpace]; omega), fun _ hb => bridgeAddr_eq_none (by omega)⟩

/-! ### What the engine writes (R71) -/

/-- Settles O45, by what an engine step can do. -/
theorem engineWritesAMemoryOnlyInItsPhase : Obligations.EngineWritesAMemoryOnlyInItsPhase := by
  intro s
  rcases engineStep_cases s with ⟨_, e⟩ | ⟨p, hp, _, e⟩ | ⟨_, _, e⟩ | ⟨p, hp, _, e⟩ | ⟨_, _, e⟩ <;> rw [e]
  · exact ⟨rfl, rfl, rfl, fun _ => rfl, fun _ => ⟨rfl, rfl, rfl⟩⟩
  · exact ⟨rfl, rfl, rfl, fun h => absurd hp h, fun _ => ⟨rfl, rfl, rfl⟩⟩
  · rcases endUnpack_cases s with ⟨_, e⟩ | ⟨_, e⟩ <;> rw [e] <;>
      exact ⟨rfl, rfl, rfl, fun _ => rfl, fun _ => ⟨rfl, rfl, rfl⟩⟩
  · rw [(sameButCatalog_catalogStatement p s).rest]
    exact ⟨rfl, rfl, rfl, fun _ => rfl, fun h => absurd hp h⟩
  · rcases endCatalog_cases s with ⟨_, e⟩ | ⟨_, e⟩ <;> rw [e] <;>
      exact ⟨rfl, rfl, rfl, fun _ => rfl, fun _ => ⟨rfl, rfl, rfl⟩⟩

/-! ### What a host sees of a running command (R73) -/

/-- What no host read shows while CAT_VALID = 0: the engine's phase, cursor and latches, the histogram and the catalog, and
the framebuffer while FB_VALID = 0 too (R64 to R66). -/
theorem hostRead_hidden {s : State} {fb : FrameMem} (hcat : s.catValid = false) (hfb : s.fbValid = true → fb = s.fb)
    (hist : Vector Word 16) (cat : CatMem) (ncat : BitVec 11) (ph : Phase) (l : Latches) (c : Option Pos)
    (a : WordAddr) :
    hostRead { s with fb := fb, hist := hist, cat := cat, ncat := ncat, phase := ph, latches := l, cursor := c } a =
      hostRead s a := by
  unfold hostRead
  cases locate a with
  | reg r =>
    cases r with
    | catSize => simp [readLoc, readReg, hcat]
    | id | cmd | status | errCode | cfg | inCtrl | inData | inCount | intEn | intStatus => rfl
  | hist c => simp [readLoc, histWindow, hcat]
  | img k => rfl
  | fb w =>
    simp only [readLoc, fbWindow]
    split
    · next h => rw [hfb h]
    · rfl
  | cat e q => simp [readLoc, catWindow, hcat]
  | reserved => rfl

/-- R73: an engine step that does not complete the command shows the host nothing. -/
theorem hostRead_engineStep {s : State} (h : Inv s) (hb : s.busy = true) (hb' : (engineStep s).busy = true)
    (a : WordAddr) : hostRead (engineStep s) a = hostRead s a := by
  have hcat : s.catValid = false := h.busy_catValid hb
  have completed {P : Prop} (hf : false = true) : P := absurd hf Bool.false_ne_true
  rcases engineStep_cases s with ⟨_, e⟩ | ⟨p, hp, _, e⟩ | ⟨_, _, e⟩ | ⟨p, _, _, e⟩ | ⟨_, _, e⟩ <;> rw [e] at hb' ⊢
  · have hfb : s.fbValid = false := h.busy_fbValid hb (h.unpacking_op hp)
    exact hostRead_hidden hcat (fun ht => absurd (hfb.symm.trans ht) Bool.false_ne_true) _ _ _ _ _ _ a
  · rcases endUnpack_cases s with ⟨_, e⟩ | ⟨_, e⟩ <;> rw [e] at hb' ⊢
    · exact hostRead_hidden hcat (fun _ => rfl) _ _ _ _ _ _ a
    · exact completed hb'
  · rw [(sameButCatalog_catalogStatement p s).rest]
    exact hostRead_hidden hcat (fun _ => rfl) _ _ _ _ _ _ a
  · rcases endCatalog_cases s with ⟨_, e⟩ | ⟨_, e⟩ <;> rw [e] at hb' <;> exact completed hb'

/-- What a transaction can change of a BUSY block: CFG, INT_EN and INT_STATUS, and the answer to a read. -/
structure SameButHostRegs (s t : State) : Prop where
  rest : t = { s with
    cfgKeytab := t.cfgKeytab, intEn := t.intEn, intStatus := t.intStatus, readData := t.readData }

theorem sameButHostRegs_accept {s : State} (hb : s.busy = true) (body : State → State) :
    SameButHostRegs s (accept body s) := by
  rw [accept_busy hb]; exact ⟨rfl⟩

/-- R133: a running command takes no other command and no input. -/
theorem sameButHostRegs_exec {i : Instr} {s t : State} (hb : s.busy = true) (h : exec i s = .next t) :
    SameButHostRegs s t := by
  have notIdle {P : Prop} (hf : s.busy = false) : P := absurd (hf.symm.trans hb) Bool.false_ne_true
  rcases exec_cases i s with ⟨_, e⟩ | ⟨_, e⟩ | ⟨_, e⟩ | ⟨_, e⟩ | ⟨_, e⟩ | ⟨_, _, e⟩ | ⟨byte, _, _, e⟩ | ⟨_, _, _, e⟩ |
    ⟨_, _, _, _, _, e⟩ | ⟨_, _, _, e⟩ | ⟨_, _, e⟩ <;> cases h.symm.trans e
  · exact sameButHostRegs_accept hb _
  · exact sameButHostRegs_accept hb _
  · exact sameButHostRegs_accept hb _
  · exact sameButHostRegs_accept hb _
  · exact sameButHostRegs_accept hb _
  · rcases resetInput_cases s with ⟨_, e⟩ | ⟨hf, _⟩
    · rw [e]; exact ⟨rfl⟩
    · exact notIdle hf
  · rcases pushByte_cases byte s with ⟨_, e⟩ | ⟨hf, _⟩ | ⟨hf, _⟩
    · rw [e]; exact ⟨rfl⟩
    · exact notIdle hf
    · exact notIdle hf
  · exact ⟨rfl⟩
  · exact ⟨rfl⟩
  · exact ⟨rfl⟩
  · exact ⟨rfl⟩

theorem sameButHostRegs_runRejected (r : Reject) {s : State} (hb : s.busy = true) :
    SameButHostRegs s (runRejected r s) := by
  by_cases hr : r = .illegalCommand
  · rw [hr]; exact sameButHostRegs_accept hb _
  · rw [runRejected_eq hr]; exact ⟨rfl⟩

theorem sameButHostRegs_busStep {txn : HostTxn} {s t : State} (hb : s.busy = true) (h : busStep txn s = .next t) :
    SameButHostRegs s t := by
  unfold busStep at h
  split at h
  · exact sameButHostRegs_exec hb h
  · cases h; exact sameButHostRegs_runRejected _ hb

/-- CFG, INT_EN and INT_STATUS are read at word addresses 4, 8 and 9 alone (R20, R26, R30, R31). -/
theorem SameButHostRegs.hostRead_eq {s t : State} (h : SameButHostRegs s t) {a : WordAddr} (h4 : a ≠ 4) (h8 : a ≠ 8)
    (h9 : a ≠ 9) : hostRead t a = hostRead s a := by
  rw [h.rest]
  unfold hostRead
  cases hl : locate a with
  | reg r =>
    have ha := eq_regAddr_of_locate hl
    cases r with
    | cfg => exact absurd ha h4
    | intEn => exact absurd ha h8
    | intStatus => exact absurd ha h9
    | id | cmd | status | errCode | inCtrl | inData | inCount | catSize => rfl
  | hist c | img k | fb w | cat e q | reserved => rfl

/-- Settles O50: what the engine writes before completion stands behind the VALID bits, and a BUSY block lets a
transaction write only the three registers the statement leaves out. -/
theorem readsDoNotChangeWhileBusy : Obligations.ReadsDoNotChangeWhileBusy := by
  intro s h hb
  refine ⟨hostRead_engineStep h hb, fun txn t hbus => ?_⟩
  have hsame := sameButHostRegs_busStep hb hbus
  exact ⟨by rw [hsame.rest]; exact hb, fun _ => hsame.hostRead_eq⟩

end Sys2Proof.Machine
end

section
/-! SUPPORT. Proofs of the statements about the encodings (30_encoding.md): a word is the concatenation of its fields,
so the decoder and the encoder undo each other, field by field. -/

namespace Sys2Proof

/-! ### The command word (R90 to R95) -/

/-- R90: a word is the command word of an opcode exactly when RSV is 0 and OP is the opcode. -/
theorem eq_cmdWord_iff {w : Word} {op : BitVec 4} :
    w = cmdWord op ↔ w.extractLsb' 4 28 = 0 ∧ w.extractLsb' 0 4 = op := by
  constructor
  · rintro rfl
    exact ⟨BitVec.extractLsb'_append_eq_left, BitVec.extractLsb'_append_eq_right⟩
  · rintro ⟨hrsv, rfl⟩
    rw [cmdWord, ← hrsv]
    exact (BitVec.extractLsb'_append_extractLsb' (w := 28) (len := 4)).symm

/-- R95: the decode table of CMD by the whole word. -/
theorem decodeCmd_eq_by_word (w : Word) : decodeCmd w =
    if w = cmdWord opNop then .ok .nop
    else if w = cmdWord opLoad then .ok .load
    else if w = cmdWord opUnpack then .ok .unpack
    else if w = cmdWord opCatalog then .ok .catalog
    else if w = cmdWord opClear then .ok .clear
    else .error .illegalCommand := by
  simp only [eq_cmdWord_iff]
  by_cases hrsv : w.extractLsb' 4 28 = 0
  · simp only [decodeCmd, hrsv, ne_eq, not_true_eq_false, if_false, true_and]
  · simp only [decodeCmd, hrsv, ne_eq, not_false_eq_true, if_true, false_and, if_false]

/-- Settles O3: CMD stands at word address 1, and the words 0 to 4 are the command words of the five opcodes. -/
theorem everyCommandWordDecodes : Obligations.EveryCommandWordDecodes := decodeCmd_eq_by_word

/-- Settles O5, by evaluation of the decoder. -/
theorem writtenOutTransactionsDecode : Obligations.WrittenOutTransactionsDecode := by
  unfold Obligations.WrittenOutTransactionsDecode
  decide

/-! ### Decoding an encoding (R60, R91, R106) -/

theorem wellFormed_rd_iff {offset : BitVec 17} : WellFormed (.rd offset) ↔ offset.extractLsb' 0 2 = 0 :=
  beq_iff_eq

/-- R60, R68: an aligned byte offset is its word address followed by two zero bits. -/
theorem wordAddr_append_eq {offset : BitVec 17} (h : offset.extractLsb' 0 2 = 0) :
    wordAddr offset ++ (0 : BitVec 2) = offset := by
  rw [wordAddr, ← h]
  exact BitVec.extractLsb'_append_extractLsb' (w := 15) (len := 2)

/-- R27, R120: a word with RST set decodes to IN_RESET with the word's other bits. -/
theorem decodeInCtrl_append_rst (ignored : BitVec 31) :
    decodeInCtrl (ignored ++ (1 : BitVec 1)) = .ok (.inReset ignored) := by
  rw [decodeInCtrl, if_pos BitVec.extractLsb'_append_eq_right, BitVec.extractLsb'_append_eq_left]

/-- R30: the fields of a word put together from the three enable bits and the bits above them. -/
theorem intEn_fields_of_append (done err viol : BitVec 1) (ignored : BitVec 29) :
    let w : Word := ignored ++ viol ++ err ++ done
    w.extractLsb' 0 1 = done ∧ w.extractLsb' 1 1 = err ∧ w.extractLsb' 2 1 = viol ∧
      w.extractLsb' 3 29 = ignored := by
  refine ⟨BitVec.extractLsb'_append_eq_right, ?_, ?_, ?_⟩
  · rw [BitVec.extractLsb'_append_eq_of_le (by omega)]
    exact BitVec.extractLsb'_append_eq_right
  · rw [BitVec.extractLsb'_append_eq_of_le (by omega), BitVec.extractLsb'_append_eq_of_le (by omega)]
    exact BitVec.extractLsb'_append_eq_right
  · rw [BitVec.extractLsb'_append_eq_of_le (by omega), BitVec.extractLsb'_append_eq_of_le (by omega)]
    exact BitVec.extractLsb'_append_eq_left

/-- Settles O1, instruction by instruction: each field is read back from the place where the encoding put it, and an
aligned read loses nothing to the two bits that the bus drops. -/
theorem decodeOfEncodeIsTheInstruction : Obligations.DecodeOfEncodeIsTheInstruction := by
  intro i hwf
  cases i with
  | nop | load | unpack | catalog | clear => rfl
  | inReset ignored => exact decodeInCtrl_append_rst ignored
  | inPush byte ignored =>
    rw [encode, decode_write_inData, BitVec.extractLsb'_append_eq_right, BitVec.extractLsb'_append_eq_left]
  | cfgWr keytab ignored =>
    rw [encode, decode_write_cfg, BitVec.extractLsb'_append_eq_right, BitVec.extractLsb'_append_eq_left]
  | intEnWr done err viol ignored =>
    obtain ⟨hdone, herr, hviol, hignored⟩ := intEn_fields_of_append done err viol ignored
    rw [encode, decode_write_intEn, hdone, herr, hviol, hignored]
  | intAck clr ignored =>
    rw [encode, decode_write_intStatus, BitVec.extractLsb'_append_eq_right, BitVec.extractLsb'_append_eq_left]
  | rd offset =>
    rw [encode, decode, wordAddr_append_eq (wellFormed_rd_iff.1 hwf)]

/-! ### Encoding what was decoded (R60, R90, R106) -/

/-- R91, R92: only the five command words decode, each to its own command. -/
theorem encode_of_decodeCmd {w : Word} {i : Instr} (h : decodeCmd w = .ok i) :
    encode i = .write cmdAddr w ∧ WellFormed i := by
  rw [decodeCmd_eq_by_word] at h
  split_ifs at h with hw hw hw hw hw <;> cases h
  all_goals exact ⟨by rw [hw, encode], rfl⟩

/-- R27, R120: IN_RESET keeps every bit of the word but RST, which is set. -/
theorem encode_of_decodeInCtrl {w : Word} {i : Instr} (h : decodeInCtrl w = .ok i) :
    encode i = .write inCtrlAddr w ∧ WellFormed i := by
  unfold decodeInCtrl at h
  split at h <;> cases h
  next hrst =>
    rw [encode, ← hrst, BitVec.extractLsb'_append_extractLsb' (w := 31) (len := 1)]
    exact ⟨rfl, rfl⟩

/-- R30: a word is the three enable bits and the bits above them, put together. -/
theorem append_intEn_fields (w : Word) :
    w.extractLsb' 3 29 ++ w.extractLsb' 2 1 ++ w.extractLsb' 1 1 ++ w.extractLsb' 0 1 = w := by
  rw [BitVec.extractLsb'_append_extractLsb'_eq_extractLsb' (by omega),
    BitVec.extractLsb'_append_extractLsb'_eq_extractLsb' (by omega)]
  exact BitVec.extractLsb'_append_extractLsb' (w := 31) (len := 1)

/-- R26 to R31: a word that decodes at a register is put together again from the fields it was read by. -/
theorem encode_of_decodeRegWrite {r : Reg} {w : Word} {i : Instr} (h : decodeRegWrite r w = .ok i) :
    encode i = .write (regAddr r) w ∧ WellFormed i := by
  cases r with
  | cmd => exact encode_of_decodeCmd h
  | inCtrl => exact encode_of_decodeInCtrl h
  | cfg =>
    cases h
    exact ⟨congrArg (HostTxn.write cfgAddr) (BitVec.extractLsb'_append_extractLsb' (w := 31) (len := 1)), rfl⟩
  | inData =>
    cases h
    exact ⟨congrArg (HostTxn.write inDataAddr) (BitVec.extractLsb'_append_extractLsb' (w := 24) (len := 8)), rfl⟩
  | intEn => cases h; exact ⟨congrArg (HostTxn.write intEnAddr) (append_intEn_fields w), rfl⟩
  | intStatus =>
    cases h
    exact ⟨congrArg (HostTxn.write intStatusAddr) (BitVec.extractLsb'_append_extractLsb' (w := 29) (len := 3)), rfl⟩
  | id | status | errCode | inCount | catSize => cases h

/-- A write decodes only at a register, and by that register's fields. -/
theorem decodeRegWrite_of_decode_write {a : WordAddr} {w : Word} {i : Instr} (h : decode (.write a w) = .ok i) :
    ∃ r, a = regAddr r ∧ decodeRegWrite r w = .ok i := by
  rw [decode] at h
  cases hl : locate a with
  | reg r => rw [hl] at h; exact ⟨r, eq_regAddr_of_locate hl, h⟩
  | hist c | img k | fb k | cat e q | reserved => rw [hl] at h; cases h

/-- Settles O2: a read names its word by an aligned offset, and a write that decodes goes to a register and is put
together from its fields. -/
theorem encodeOfDecodeIsTheTransaction : Obligations.EncodeOfDecodeIsTheTransaction := by
  intro t i h
  cases t with
  | read a =>
    cases h
    exact ⟨by rw [encode, wordAddr_append_zero], wellFormed_rd_iff.2 BitVec.extractLsb'_append_eq_right⟩
  | write a w =>
    obtain ⟨r, rfl, hr⟩ := decodeRegWrite_of_decode_write h
    exact encode_of_decodeRegWrite hr

end Sys2Proof
end

section
/-! SUPPORT. Proofs of the statements about the input port and the host's register writes (40_input_and_load.md R120 to
R126, R133): what a write does to an idle block, and what a BUSY one refuses. -/

namespace Sys2Proof.Machine

/-! ### Registers and reads (R123 to R125) -/

/-- R30: the three enable bits put together are bits 2:0 of the word they were read from. -/
theorem append_intEn_enables (w : Word) :
    w.extractLsb' 2 1 ++ w.extractLsb' 1 1 ++ w.extractLsb' 0 1 = w.extractLsb' 0 3 := by
  rw [BitVec.extractLsb'_append_extractLsb'_eq_extractLsb' (by omega),
    BitVec.extractLsb'_append_extractLsb'_eq_extractLsb' (by omega)]

theorem busStep_cfg (w : Word) (s : State) :
    busStep (.write 4 w) s = .next { s with cfgKeytab := w.extractLsb' 0 1 } :=
  busStep_ok (decode_write_cfg w) s

theorem busStep_intEn (w : Word) (s : State) :
    busStep (.write 8 w) s = .next { s with intEn := w.extractLsb' 0 3 } := by
  rw [← append_intEn_enables]
  exact busStep_ok (decode_write_intEn w) s

/-- Settles O22: the enable bits stand in INT_EN in the order VIOL, ERR, DONE, at both interfaces. -/
theorem configurationWritesStoreTheirFields : Obligations.ConfigurationWritesStoreTheirFields := by
  intro s
  refine ⟨fun _ _ => rfl, fun doneIe errIe violIe _ => ⟨violIe ++ errIe ++ doneIe, rfl, ?_⟩,
    fun w => ⟨busStep_cfg w s, busStep_intEn w s⟩⟩
  refine ⟨BitVec.extractLsb'_append_eq_right, ?_, ?_⟩
  · rw [BitVec.extractLsb'_append_eq_of_le (by omega)]
    exact BitVec.extractLsb'_append_eq_right
  · rw [BitVec.extractLsb'_append_eq_of_le (by omega)]
    exact BitVec.extractLsb'_append_eq_left

/-- Settles O24: INT_ACK is the shared INT_STATUS update with no set event. -/
theorem intAckClearsTheWrittenBits : Obligations.IntAckClearsTheWrittenBits := by
  intro s clr ignored
  rw [← intUpdate_clear]
  rfl

theorem busStep_intStatus (w : Word) (s : State) :
    busStep (.write 9 w) s = .next { s with intStatus := s.intStatus &&& ~~~(w.extractLsb' 0 3) } :=
  (busStep_ok (decode_write_intStatus w) s).trans (intAckClearsTheWrittenBits s _ _)

/-- Settles O28: the word address of a byte offset is its bits 16:2. -/
theorem readAnswersAndChangesNothing : Obligations.ReadAnswersAndChangesNothing := fun _ _ => rfl

/-! ### Refusal while BUSY (R133, R225) -/

/-- R133: a refusal raises VIOL. -/
theorem refuse_eq (s : State) : refuse s = { s with intStatus := s.intStatus ||| 0b100 } := by
  rw [refuse, intUpdate_set, intViol]

theorem accept_refused {s : State} (hb : s.busy = true) (body : State → State) :
    accept body s = { s with intStatus := s.intStatus ||| 0b100 } :=
  (accept_busy hb).trans (refuse_eq s)

theorem pushByte_refused {s : State} (hb : s.busy = true) (v : Byte) :
    pushByte v s = { s with intStatus := s.intStatus ||| 0b100 } := by
  rw [← refuse_eq, pushByte, if_pos hb]

theorem resetInput_refused {s : State} (hb : s.busy = true) :
    resetInput s = { s with intStatus := s.intStatus ||| 0b100 } := by
  rw [← refuse_eq, resetInput, if_pos hb]

/-- R95, R230: whatever its word, a write to CMD is the acceptance of a command, legal or illegal. -/
theorem busStep_cmd_eq_accept (w : Word) (s : State) : ∃ body, busStep (.write 1 w) s = .next (accept body s) := by
  have hd : decode (.write 1 w) = decodeCmd w := rfl
  rw [busStep, hd, decodeCmd_eq_by_word]
  split_ifs <;> exact ⟨_, rfl⟩

theorem busStep_inCtrl_rst {w : Word} (h : w.getLsbD 0 = true) (s : State) :
    busStep (.write 5 w) s = .next (resetInput s) :=
  busStep_ok (txn := .write 5 w) (decodeInCtrl_rst h) s

/-- R120: without RST a write to IN_CTRL does nothing. -/
theorem busStep_inCtrl_noRst {w : Word} (h : w.getLsbD 0 = false) (s : State) : busStep (.write 5 w) s = .next s :=
  busStep_error (txn := .write 5 w) (decodeInCtrl_noRst h) nofun s

theorem busStep_inData (w : Word) (s : State) : busStep (.write 6 w) s = .next (pushByte (w.extractLsb' 0 8) s) :=
  busStep_ok (decode_write_inData w) s

/-- Settles O10, by the register the write goes to. -/
theorem busyBlockRefusesCommandAndInputWrites : Obligations.BusyBlockRefusesCommandAndInputWrites := by
  intro s a w hb
  refine ⟨?_, ?_, ?_, ?_, ?_, fun h1 h4 h5 h6 h8 h9 =>
    reservedAndReadOnlyLocationsIgnoreWrites.1 s a w h1 h4 h5 h6 h8 h9⟩
  · rintro (rfl | rfl | ⟨rfl, hrst⟩)
    · obtain ⟨body, e⟩ := busStep_cmd_eq_accept w s
      rw [e, accept_refused hb]
    · rw [busStep_inData, pushByte_refused hb]
    · rw [busStep_inCtrl_rst hrst, resetInput_refused hb]
  · rintro rfl; exact busStep_cfg w s
  · rintro rfl; exact busStep_intEn w s
  · rintro rfl; exact busStep_intStatus w s
  · rintro rfl hrst; exact busStep_inCtrl_noRst hrst s

/-! ### The input port (R120, R122) -/

/-- Settles O19: an idle block takes IN_RESET, a BUSY one refuses it, and bit 0 = 0 is no IN_RESET. -/
theorem inResetEmptiesTheInput : Obligations.InResetEmptiesTheInput := fun s =>
  ⟨fun _ hb => congrArg Host.Outcome.next (if_neg (by simp [hb])),
    fun _ hb => congrArg Host.Outcome.next (resetInput_refused hb), fun _ hrst => busStep_inCtrl_noRst hrst s⟩

/-- R122: an idle block with room takes the byte. -/
theorem pushByte_taken {s : State} (hb : s.busy = false) (hlt : s.inCount.toNat < 10001) (v : Byte) :
    pushByte v s = { s with img := imgWrite s.img s.inCount.toNat v, inCount := s.inCount + 1 } := by
  rw [pushByte, if_neg (by simp [hb]), if_pos hlt]

/-- R122: an idle block with a full input records the overflow. -/
theorem pushByte_overflow {s : State} (hb : s.busy = false) (hge : 10001 ≤ s.inCount.toNat) (v : Byte) :
    pushByte v s = { s with inOvf := true } := by
  rw [pushByte, if_neg (by simp [hb]), if_neg (Nat.not_lt.2 hge)]

theorem accept_inOvf {body : State → State} (hbody : ∀ s, (body s).inOvf = s.inOvf) (s : State) :
    (accept body s).inOvf = s.inOvf := by
  rcases accept_cases body s with ⟨_, e⟩ | ⟨_, e⟩ <;> rw [e]
  · rfl
  · exact hbody _

theorem startDecoding_inOvf (op : BitVec 4) (s : State) : (startDecoding op s).inOvf = s.inOvf := by
  rcases startDecoding_cases op s with ⟨_, e⟩ | ⟨_, e⟩ <;> rw [e] <;> rfl

theorem startCatalog_inOvf (s : State) : (startCatalog s).inOvf = s.inOvf := by
  rcases startCatalog_cases s with ⟨_, e⟩ | ⟨_, e⟩ <;> rw [e] <;> rfl

theorem pushByte_inOvf (v : Byte) {s : State} (h : s.inOvf = true) : (pushByte v s).inOvf = true := by
  rcases pushByte_cases v s with ⟨_, e⟩ | ⟨_, _, e⟩ | ⟨_, _, e⟩ <;> rw [e]
  · exact h
  · exact h

/-- R122: only IN_RESET clears IN_OVF. -/
theorem exec_inOvf {i : Instr} {s t : State} (he : exec i s = .next t) (h : s.inOvf = true)
    (hi : ∀ ignored, i ≠ .inReset ignored) : t.inOvf = true := by
  rcases exec_cases i s with ⟨_, e⟩ | ⟨_, e⟩ | ⟨_, e⟩ | ⟨_, e⟩ | ⟨_, e⟩ | ⟨ignored, hr, e⟩ | ⟨byte, _, _, e⟩ |
    ⟨_, _, _, e⟩ | ⟨_, _, _, _, _, e⟩ | ⟨_, _, _, e⟩ | ⟨_, _, e⟩ <;> cases he.symm.trans e
  · exact (accept_inOvf (complete_inOvf .none) s).trans h
  · exact (accept_inOvf (startDecoding_inOvf _) s).trans h
  · exact (accept_inOvf (startDecoding_inOvf _) s).trans h
  · exact (accept_inOvf startCatalog_inOvf s).trans h
  · exact (accept_inOvf (body := clearResults) (fun _ => rfl) s).trans h
  · exact absurd hr (hi ignored)
  · exact pushByte_inOvf byte h
  · exact h
  · exact h
  · exact h
  · exact h

/-- Settles O20: the three cases of a push, then IN_OVF over engine steps, which never write it, and instructions. -/
theorem inPushAppendsOrOverflows : Obligations.InPushAppendsOrOverflows := by
  intro s
  obtain ⟨-, -, hovf, -⟩ := engineWritesAMemoryOnlyInItsPhase s
  exact ⟨fun byte _ hb hlt => congrArg Host.Outcome.next (pushByte_taken hb hlt byte),
    fun byte _ hb hge => congrArg Host.Outcome.next (pushByte_overflow hb hge byte),
    fun byte _ hb => congrArg Host.Outcome.next (pushByte_refused hb byte),
    fun h => ⟨hovf.trans h, fun _ _ he hi => exec_inOvf he h hi⟩⟩

/-- Settles O21: the write rule of IMG at the address IN_COUNT, which is below the length of IMG. -/
theorem inPushWritesOneByteOfImg : Obligations.InPushWritesOneByteOfImg := by
  intro s byte ignored hwf hb hlt
  refine ⟨_, congrArg Host.Outcome.next (pushByte_taken hb hlt byte), ?_, fun a ha => ?_, ?_, imgWrite_wf hwf hlt⟩
  · exact (imgRead_imgWrite hwf).trans (if_pos rfl)
  · exact (imgRead_imgWrite hwf).trans (if_neg ha)
  · exact BitVec.toNat_add_of_lt (by simp; omega)

end Sys2Proof.Machine
end

section
/-! SUPPORT. Proofs of the statements about the commands (40_input_and_load.md R126 to R141): acceptance, completion at
once, and what a running engine does not see. -/

namespace Sys2Proof.Machine

/-! ### Completion at once (R131, R135, R137, R139) -/

/-- R131: DONE always, ERR for a code other than 0, VIOL never. -/
theorem getLsbD_completionBits (c : ErrCode) :
    (completionBits c).getLsbD 0 = true ∧ (completionBits c).getLsbD 1 = decide (c.bits ≠ 0) ∧
      (completionBits c).getLsbD 2 = false := by
  cases c <;> decide

/-- Settles O18, bit by bit of INT_STATUS. -/
theorem completionRecordsCodeAndInterrupts : Obligations.CompletionRecordsCodeAndInterrupts := by
  intro c s
  obtain ⟨hdone, herr, hviol⟩ := getLsbD_completionBits c
  refine ⟨rfl, ?_, ?_, ?_, rfl, rfl, rfl, rfl⟩ <;> rw [complete_intStatus, intUpdate_set, BitVec.getLsbD_or]
  · rw [hdone, Bool.or_true]
  · rw [herr]
  · rw [hviol, Bool.or_false]

/-- R131: on a block that is idle already a completion records its code and raises its interrupts. -/
theorem complete_idle (c : ErrCode) {s : State} (hb : s.busy = false) (hp : s.phase = .idle) :
    complete c s = { s with errCode := c.bits, intStatus := s.intStatus ||| completionBits c } := by
  rw [complete, intUpdate_set, ← hb, ← hp]

/-- R130, R131: the acceptance of a command that completes at once. -/
theorem accept_complete_idle (c : ErrCode) {s : State} (hb : s.busy = false) (hp : s.phase = .idle) :
    accept (complete c) s = { s with errCode := c.bits, intStatus := s.intStatus ||| completionBits c } :=
  (accept_idle hb).trans (complete_idle c (s := { s with errCode := 0 }) hb hp)

/-- Settles O12: NOP is an acceptance with nothing before its completion. -/
theorem nopCompletesAtOnce : Obligations.NopCompletesAtOnce := fun _ =>
  ⟨fun hb hp => congrArg Host.Outcome.next (accept_complete_idle .none hb hp),
    fun hb => congrArg Host.Outcome.next (accept_refused hb _)⟩

/-- R92, R95: a word with RSV != 0 or OP in 0x5..0xF is no command. -/
theorem decodeCmd_illegal {w : Word} (h : w.extractLsb' 4 28 ≠ 0 ∨ 5 ≤ (w.extractLsb' 0 4).toNat) :
    decodeCmd w = .error .illegalCommand := by
  have notCommand (op : BitVec 4) (hop : op.toNat < 5) : w ≠ cmdWord op := fun hw => by
    obtain ⟨hrsv, rfl⟩ := eq_cmdWord_iff.1 hw
    exact h.elim (· hrsv) (Nat.not_le.2 hop)
  rw [decodeCmd_eq_by_word, if_neg (notCommand opNop (by decide)), if_neg (notCommand opLoad (by decide)),
    if_neg (notCommand opUnpack (by decide)), if_neg (notCommand opCatalog (by decide)),
    if_neg (notCommand opClear (by decide))]

/-- Settles O9: the decoder rejects the word, and the illegal command is an acceptance that completes at once. -/
theorem illegalCommandCompletesWithItsCode : Obligations.IllegalCommandCompletesWithItsCode := by
  intro s w hw
  have hd : decode (.write 1 w) = .error .illegalCommand := decodeCmd_illegal hw
  have hstep : busStep (.write 1 w) s = .next (accept (complete .illegalCmd) s) := by
    simp only [busStep, hd, runRejected, illegalCommand]
  rw [hstep]
  exact ⟨fun hb hp => congrArg Host.Outcome.next (accept_complete_idle .illegalCmd hb hp),
    fun hb => congrArg Host.Outcome.next (accept_refused hb _)⟩

/-- R61: the range of the IMG window. -/
theorem toNat_of_locate_img {a : WordAddr} {k : Nat} (h : locate a = .img k) :
    0x1000 ≤ a.toNat ∧ a.toNat < 0x19C5 := by
  by_contra hout
  by_cases h0 : a.toNat < 0x40
  · rw [locate_lt_64 h0] at h
    split at h <;> cases h
  · simp only [locate, h0, if_false] at h
    split_ifs at h
    omega

/-- R64 to R66: with both VALID bits down the windows, but for IMG, read 0. -/
theorem hostRead_window_invalid {s : State} (hfb : s.fbValid = false) (hcat : s.catValid = false) {a : WordAddr}
    (h : 0x40 ≤ a.toNat) (himg : a.toNat < 0x1000 ∨ 0x19C5 ≤ a.toNat) : hostRead s a = 0 := by
  unfold hostRead
  cases hl : locate a with
  | reg r => exact absurd hl (locate_ne_reg (Nat.not_lt.2 h) r)
  | hist c => simp [readLoc, histWindow, hcat]
  | img k =>
    have := toNat_of_locate_img hl
    omega
  | fb w => simp [readLoc, fbWindow, hfb]
  | cat e q => simp [readLoc, catWindow, hcat]
  | reserved => rfl

/-- Settles O13: CLEAR is an acceptance that drops both VALID bits and NCAT and completes at once, and the gates of
R64 to R66 then hide the memories. -/
theorem clearInvalidatesTheResults : Obligations.ClearInvalidatesTheResults := by
  intro s
  refine ⟨fun hb hp => ⟨_, rfl, ?_⟩, fun hb => congrArg Host.Outcome.next (accept_refused hb _)⟩
  have e : accept clearResults s = { s with
      errCode := 0, fbValid := false, catValid := false, ncat := 0, intStatus := s.intStatus ||| 0b001 } :=
    (accept_idle hb).trans (complete_idle .none hb hp)
  rw [e]
  exact ⟨rfl, rfl, fun a h1 h2 => hostRead_window_invalid rfl rfl h1 (by omega),
    fun a h => hostRead_window_invalid rfl rfl (by omega) (by omega)⟩

/-! ### Acceptance (R126, R130) -/

/-- R130: LOAD and UNPACK over a well-formed input go BUSY. -/
theorem accept_startDecoding_ok (op : BitVec 4) {s : State} (hb : s.busy = false) (hok : inputOk s = true) :
    accept (startDecoding op) s =
      start op .unpacking { s with errCode := 0, fbValid := false, catValid := false } := by
  rw [accept_idle hb]
  exact if_pos hok

/-- R126: LOAD and UNPACK over any other input complete at once. -/
theorem accept_startDecoding_malformed (op : BitVec 4) {s : State} (hb : s.busy = false) (hp : s.phase = .idle)
    (hok : ¬ inputOk s = true) :
    accept (startDecoding op) s = { s with
      errCode := 1, fbValid := false, catValid := false, intStatus := s.intStatus ||| 0b011 } := by
  rw [accept_idle hb]
  exact (if_neg hok).trans (complete_idle .malformedInput hb hp)

/-- Settles O14: the two commands differ in OP_LAT alone. -/
theorem loadAndUnpackStartOnAWellFormedInput : Obligations.LoadAndUnpackStartOnAWellFormedInput := by
  intro s hb hcount hovf
  have hok : inputOk s = true := (inputOk_iff s).2 ⟨hcount, hovf⟩
  exact ⟨congrArg Host.Outcome.next (accept_startDecoding_ok opLoad hb hok),
    congrArg Host.Outcome.next (accept_startDecoding_ok opUnpack hb hok)⟩

/-- Settles O15, by the acceptance with FB_VALID set. -/
theorem catalogStartsOnAValidFramebuffer : Obligations.CatalogStartsOnAValidFramebuffer := fun _ hb hfb =>
  congrArg Host.Outcome.next ((accept_idle hb).trans (if_pos hfb))

/-- Settles O16, by the acceptance whose length check fails. -/
theorem malformedInputCompletesWithItsCode : Obligations.MalformedInputCompletesWithItsCode := by
  intro s hb hp hlen
  have hok : ¬ inputOk s = true := mt (inputOk_iff s).1 hlen
  exact ⟨congrArg Host.Outcome.next (accept_startDecoding_malformed opLoad hb hp hok),
    congrArg Host.Outcome.next (accept_startDecoding_malformed opUnpack hb hp hok)⟩

/-! ### What a running engine does not see (R76, R123, R264) -/

/-- The state after a write of CFG and a write of INT_EN. -/
def setConfig (k : BitVec 1) (en : BitVec 3) (s : State) : State := { s with cfgKeytab := k, intEn := en }

theorem insertOrCount_setConfig (key : Key) (k : BitVec 1) (en : BitVec 3) (s : State) :
    insertOrCount key (setConfig k en s) = setConfig k en (insertOrCount key s) := by
  unfold insertOrCount
  rw [show (setConfig k en s).cat = s.cat from rfl, show (setConfig k en s).ncat = s.ncat from rfl]
  cases findKey s.cat s.ncat.toNat key <;> rfl

theorem scanBody_setConfig (p : Pos) (k : BitVec 1) (en : BitVec 3) (s : State) :
    scanBody p (setConfig k en s) = setConfig k en (scanBody p s) := by
  simp only [scanBody_eq, insertOrCount_setConfig]
  rfl

theorem endUnpack_setConfig (k : BitVec 1) (en : BitVec 3) (s : State) :
    endUnpack (setConfig k en s) = setConfig k en (endUnpack s) := by
  rcases endUnpack_cases s with ⟨ho, e⟩ | ⟨ho, e⟩ <;> rw [e]
  · exact if_pos ho
  · exact if_neg ho

theorem endCatalog_setConfig (k : BitVec 1) (en : BitVec 3) (s : State) :
    endCatalog (setConfig k en s) = setConfig k en (endCatalog s) := by
  rcases endCatalog_cases s with ⟨ho, e⟩ | ⟨ho, e⟩ <;> rw [e]
  · exact if_pos ho
  · exact if_neg ho

/-- R123: the engine reads neither CFG nor INT_EN, and writes neither. -/
theorem engineStep_setConfig (k : BitVec 1) (en : BitVec 3) (s : State) :
    engineStep (setConfig k en s) = setConfig k en (engineStep s) := by
  rcases engineStep_cases s with ⟨hp, e⟩ | ⟨p, hp, hc, e⟩ | ⟨hp, hc, e⟩ | ⟨p, hp, hc, e⟩ | ⟨hp, hc, e⟩ <;> rw [e]
  · exact engineStep_idle hp
  · exact engineStep_unpacking (s := setConfig k en s) hp hc
  · rw [engineStep_endUnpack (s := setConfig k en s) hp hc, endUnpack_setConfig]
  · rw [engineStep_cataloging (s := setConfig k en s) hp hc, catalogStatement_eq_scanBody,
      catalogStatement_eq_scanBody, ← scanBody_setConfig, apply_ite (setConfig k en)]
    rfl
  · rw [engineStep_endCatalog (s := setConfig k en s) hp hc, endCatalog_setConfig]

/-- Settles O23, by induction on the number of engine steps. -/
theorem runningCommandDoesNotSeeConfigurationWrites : Obligations.RunningCommandDoesNotSeeConfigurationWrites := by
  intro n s k en
  show engineRun n (setConfig k en s) = setConfig k en (engineRun n s)
  induction n generalizing s with
  | zero => rfl
  | succ n ih => rw [engineRun, engineRun, engineStep_setConfig, ih]

/-! ### A push that races with a completion (R9, R122, R133) -/

/-- R133: a push that comes while BUSY. -/
theorem step_push_refused {s : State} {w : Word} {rest : List Input} (hin : s.inputs = .bus (.write 6 w) :: rest)
    (hb : s.busy = true) :
    step s = .next { s with inputs := rest, intStatus := s.intStatus ||| 0b100 } := by
  rw [step_bus hin, busStep_inData]
  exact congrArg Host.Outcome.next (pushByte_refused (s := { s with inputs := rest }) hb _)

/-- R122: a push that comes on an idle block with a full input. -/
theorem step_push_overflow {s : State} {w : Word} {rest : List Input} (hin : s.inputs = .bus (.write 6 w) :: rest)
    (hb : s.busy = false) (hge : 10001 ≤ s.inCount.toNat) :
    step s = .next { s with inputs := rest, inOvf := true } := by
  rw [step_bus hin, busStep_inData]
  exact congrArg Host.Outcome.next (pushByte_overflow (s := { s with inputs := rest }) hb hge _)

/-- R140: a turn of the engine that completes a LOAD. -/
theorem step_endLoad {s : State} {rest : List Input} (hin : s.inputs = .engine 1 :: rest) (hp : s.phase = .cataloging)
    (hc : s.cursor = none) (ho : s.opLat = opLoad) :
    step s = .next (drawIdle (complete .none { s with fbValid := true, catValid := true, inputs := rest })) := by
  rw [step_engine hin]
  exact congrArg Host.Outcome.next ((engineStep_endCatalog (s := { s with inputs := rest }) hp hc).trans (if_pos ho))

/-- R126, R140: a LOAD runs over a full input with no overflow. -/
theorem Inv.input_of_load {s : State} (h : Inv s) (hb : s.busy = true) (ho : s.opLat = opLoad) :
    s.inCount.toNat = 10001 ∧ s.inOvf = false :=
  (inputOk_iff s).1 (h.busy_inputOk hb (.inl ho))

/-- Settles O59: before the completion the block is BUSY and refuses the push; after it the block is idle with a full
input, and the push overflows. -/
theorem pushRacesWithCompletion : Obligations.PushRacesWithCompletion := by
  intro s byte h hp ho hc
  have hb : s.busy = true := h.busy_of_phase (by simp [hp])
  obtain ⟨hcount, hovf⟩ := h.input_of_load hb ho
  constructor
  · refine ⟨_, _, step_push_refused rfl hb, step_endLoad rfl hp hc ho, rfl, hovf, ?_⟩
    rw [drawIdle_intStatus, complete_intStatus, intUpdate_set, BitVec.or_assoc]
    rfl
  · exact ⟨_, _, step_endLoad rfl hp hc ho, step_push_overflow rfl rfl (Nat.le_of_eq hcount.symm), rfl, rfl,
      intUpdate_set _ _, rfl⟩

end Sys2Proof.Machine
end

section
/-! SUPPORT. Proof of the statement about LOAD's results (40_input_and_load.md R140, R141): the two phases one after the
other, and the sums of R203 that the scan of a framebuffer gives. -/

namespace Sys2Proof.Machine

/-! ### The sums (R203) -/

/-- R196, R203: each entry scanned is counted in one counter. -/
theorem ScanUpTo.sum_hist {fb : FrameMem} {k : BitVec 1} {n : Nat} {s : State} (h : ScanUpTo fb k n s) :
    (∑ c : Fin 16, s.hist[c].toNat) = n := by
  calc ∑ c : Fin 16, s.hist[c].toNat
    _ = ∑ c : Fin 16, ((Finset.range n).filter fun i => (scannedEntry fb i).toFin = c).card := by
      simp only [h.hist, Fin.ext_iff]; rfl
    _ = (Finset.range n).card := (Finset.card_eq_sum_card_fiberwise fun _ _ => Finset.mem_univ _).symm
    _ = n := Finset.card_range n

/-- R198, R203: each cell scanned is counted in the one entry that holds its key. -/
theorem CatUpTo.sum_counts {fb : FrameMem} {k : BitVec 1} {m ncat : Nat} {cat : CatMem} (h : CatUpTo fb k m ncat cat) :
    (∑ e ∈ Finset.range ncat, (catRead cat e).count.toNat) = m := by
  have hinj : Set.InjOn (fun e => (catRead cat e).key) (Finset.range ncat) := fun e he e' he' hk =>
    h.distinct e e' (Finset.mem_range.1 he) (Finset.mem_range.1 he') hk
  have hmaps : Set.MapsTo (keyOfCell fb k) (Finset.range m)
      ((Finset.range ncat).image fun e => (catRead cat e).key) := fun c hc => by
    obtain ⟨e, he, hk⟩ := h.complete c (Finset.mem_range.1 hc)
    exact Finset.mem_image.2 ⟨e, Finset.mem_range.2 he, hk⟩
  calc ∑ e ∈ Finset.range ncat, (catRead cat e).count.toNat
    _ = ∑ e ∈ Finset.range ncat, ((Finset.range m).filter fun c => keyOfCell fb k c = (catRead cat e).key).card :=
      Finset.sum_congr rfl fun e he => h.counts e (Finset.mem_range.1 he)
    _ = ∑ key ∈ (Finset.range ncat).image fun e => (catRead cat e).key,
          ((Finset.range m).filter fun c => keyOfCell fb k c = key).card := 
      (Finset.sum_image (f := fun key => ((Finset.range m).filter fun c => keyOfCell fb k c = key).card) hinj).symm
    _ = (Finset.range m).card := (Finset.card_eq_sum_card_fiberwise hmaps).symm
    _ = m := Finset.card_range m

/-! ### The phases to their ends (R168, R200) -/

/-- R168: the whole unpack phase, up to the step that ends it. -/
theorem unpack_end {s : State} (hwf : FrameMem.wf s.fb) (hp : s.phase = .unpacking) (hc : s.cursor = some firstPos) :
    ∃ fb l, engineRun 32001 s = endUnpack { s with fb := fb, latches := l, cursor := none } ∧ FrameMem.wf fb ∧
      ∀ p, fbRead fb (fbAddr p) = pixel s.img p := by
  obtain ⟨fb, l, e, hw, hfb, -⟩ := unpack_run hwf hp hc 32000 (Nat.le_refl _)
  refine ⟨fb, l, ?_, hw, fun p => (hfb p).trans (if_pos (posIndex_lt p))⟩
  rw [engineRun_succ', e, cursorAt_last]
  exact engineStep_endUnpack hp rfl

theorem endCatalog_phase (s : State) : (endCatalog s).phase = .idle := by
  rcases endCatalog_cases s with ⟨_, e⟩ | ⟨_, e⟩ <;> rw [e] <;> rfl

/-- R200: the catalog phase of either command, run past its end. -/
theorem catalog_run_endCatalog {s : State} (hwf : CatMem.wf s.cat) (hp : s.phase = .cataloging)
    (hc : s.cursor = some firstPos) (n : Nat) (hn : 32001 ≤ n) :
    ∃ u, SameButCatalog s u ∧ ScanUpTo s.fb s.kLat 32000 u ∧ engineRun n s = endCatalog u := by
  obtain ⟨hsame, hcur, hscan⟩ : SameButCatalog s (engineRun 32000 s) ∧ _ ∧ ScanUpTo _ _ 32000 (engineRun 32000 s) :=
    catalog_run hwf hp hc 31999 (by omega)
  have hphase : (engineRun 32000 s).phase = .cataloging := by rw [hsame.rest]; exact hp
  have hend : engineRun 32001 s = endCatalog (engineRun 32000 s) := by
    rw [engineRun_succ', engineStep_endCatalog hphase (hcur.trans cursorAt_last)]
  refine ⟨_, hsame, hscan, ?_⟩
  obtain ⟨k, rfl⟩ := Nat.exists_eq_add_of_le hn
  rw [engineRun_add, hend, engineRun_idle (endCatalog_phase _)]

/-- R140: a LOAD, from its acceptance past its completion: the unpack phase builds the framebuffer, the catalog phase
scans it, and every other field is what the acceptance left. -/
theorem load_run {s : State} (hfb : FrameMem.wf s.fb) (hcat : CatMem.wf s.cat) (hp : s.phase = .unpacking)
    (hc : s.cursor = some firstPos) (ho : s.opLat = opLoad) (n : Nat) (hn : 64002 ≤ n) :
    ∃ fb l u, (∀ p, fbRead fb (fbAddr p) = pixel s.img p) ∧ FrameMem.wf fb ∧ ScanUpTo fb s.kLat 32000 u ∧
      SameButCatalog { s with fb := fb, latches := l, phase := .cataloging, cursor := some firstPos } u ∧
      engineRun n s = drawIdle (complete .none { u with fbValid := true, catValid := true }) := by
  obtain ⟨fb, l, e, hw, hpix⟩ := unpack_end hfb hp hc
  obtain ⟨k, rfl⟩ := Nat.exists_eq_add_of_le (show 32001 ≤ n by omega)
  obtain ⟨u, hsame, hscan, hrun⟩ := catalog_run_endCatalog
    (s := { s with fb := fb, latches := l, phase := .cataloging, cursor := some firstPos }) hcat rfl rfl k (by omega)
  have hop : u.opLat = opLoad := by rw [hsame.rest]; exact ho
  refine ⟨fb, l, u, hpix, hw, hscan, hsame, ?_⟩
  rw [engineRun_add, e, endUnpack, if_pos ho, hrun, endCatalog, if_pos hop]

/-- Settles O53: LOAD is accepted, its unpack phase gives the pixels of R171, and its catalog phase the sums. -/
theorem loadBuildsFramebufferHistogramAndCatalog : Obligations.LoadBuildsFramebufferHistogramAndCatalog := by
  intro s h hb hcount hovf
  have hstart := accept_startDecoding_ok opLoad hb ((inputOk_iff s).2 ⟨hcount, hovf⟩)
  refine ⟨_, congrArg Host.Outcome.next hstart, 64002, fun n hn => ?_⟩
  obtain ⟨fb, l, u, hpix, -, hscan, hsame, e⟩ := load_run
    (s := start opLoad .unpacking { s with errCode := 0, fbValid := false, catValid := false })
    h.fbWf h.catWf rfl rfl rfl n hn
  have himg : u.img = s.img := by rw [hsame.rest]; rfl
  have hinCount : u.inCount = s.inCount := by rw [hsame.rest]; rfl
  have hfb : u.fb = fb := by rw [hsame.rest]
  have hint : u.intStatus = s.intStatus := by rw [hsame.rest]; rfl
  rw [e]
  refine ⟨rfl, rfl, rfl, rfl, ?_, himg, hinCount, fun p => ?_, hscan.sum_hist, hscan.cat.sum_counts⟩
  · rw [← hint]; exact intUpdate_set _ _
  · rw [drawIdle_fb, complete_fb, hfb]; exact hpix p

end Sys2Proof.Machine
end

section
/-! SUPPORT. Proofs of the statements about the unpack phase (41_unpack.md R160 to R172): the code of a wide pixel, the
framebuffer's addresses, one statement of the phase, the framebuffer UNPACK builds, and UNPACK then CATALOG against
LOAD. -/

namespace Sys2Proof.Machine

/-! ### The code and the multiplexer (R160, R161) -/

/-- R160: the mask and the shift select two neighbouring bits. -/
theorem code_eq_extractLsb' (b : Byte) (j : Fin 4) : code b j = b.extractLsb' (6 - 2 * j.val) 2 := by
  apply BitVec.eq_of_getLsbD_eq
  intro i hi
  match j, i, hi with
  | 0, 0, _ | 0, 1, _ | 1, 0, _ | 1, 1, _ | 2, 0, _ | 2, 1, _ | 3, 0, _ | 3, 1, _ => simp [code, codeMask]

/-- R11: the high nibble of a byte. -/
theorem toNat_extractLsb'_high (b : Byte) : (b.extractLsb' 4 4).toNat = b.toNat / 16 := by
  have := b.isLt
  rw [BitVec.extractLsb'_toNat, Nat.shiftRight_eq_div_pow]
  omega

/-- Settles O39: each code runs into its own arm of the multiplexer. -/
theorem codeIsTheBitPairAndMuxSelectsItsSource : Obligations.CodeIsTheBitPairAndMuxSelectsItsSource :=
  ⟨code_eq_extractLsb', fun scr _ _ => ⟨BitVec.extractLsb'_toNat .., toNat_extractLsb'_high scr,
    BitVec.extractLsb'_toNat .., BitVec.extractLsb'_toNat ..⟩⟩

/-! ### Framebuffer addresses (R164, R165) -/

/-- R165: every entry of the framebuffer is a position's. -/
theorem exists_fbAddr {n : Nat} (h : n < 32000) : ∃ p, fbAddr p = n := by
  refine ⟨⟨⟨n / 1280, by omega⟩, ⟨n % 160 / 4, by omega⟩, ⟨n / 160 % 8, by omega⟩, ⟨n % 4, by omega⟩⟩, ?_⟩
  simp only [fbAddr, Config.fbW]
  omega

/-- Settles O40: a row and a column are the quotient and the remainder by 160. -/
theorem framebufferAddressIsABijection : Obligations.FramebufferAddressIsABijection :=
  ⟨fun _ => rfl, fbAddr_lt, fun _ _ => fbAddr_inj, fun _ => exists_fbAddr⟩

/-- R165: two framebuffers with the same entry at every position are the same. -/
theorem framebuffer_ext {fb fb' : FrameMem} (hw : FrameMem.wf fb) (hw' : FrameMem.wf fb')
    (h : ∀ p, fbRead fb (fbAddr p) = fbRead fb' (fbAddr p)) : fb = fb' := by
  refine store_ext hw hw' fun a => ?_
  by_cases ha : a < 32000
  · obtain ⟨p, rfl⟩ := exists_fbAddr ha
    exact h p
  · rw [storeRead_of_ge hw (Nat.not_lt.1 ha), storeRead_of_ge hw' (Nat.not_lt.1 ha)]

/-! ### One statement of the phase (R163, R167, R168) -/

theorem posIndex_of_nextPos {p q : Pos} (h : nextPos p = some q) : posIndex q = posIndex p + 1 := by
  rcases nextPos_cases p with ⟨r, hr, hi⟩ | ⟨hn, -⟩
  · cases hr.symm.trans h
    exact hi
  · cases hn.symm.trans h

/-- R167: the scan ends after its last position. -/
theorem nextPos_eq_none_iff {p : Pos} : nextPos p = none ↔ p = { y := 24, x := 39, i := 7, j := 3 } := by
  constructor
  · intro h
    rcases nextPos_cases p with ⟨r, hr, -⟩ | ⟨-, hi⟩
    · cases hr.symm.trans h
    · exact posIndex_inj hi
  · rintro rfl
    rfl

/-- Settles O42, by the statement's own write and loads. -/
theorem unpackStepWritesOneEntry : Obligations.UnpackStepWritesOneEntry := by
  intro s p hwf hp hc
  refine ⟨_, unpackLatches s.img s.latches p, engineStep_unpacking hp hc, ?_, fun n hn => ?_, rfl, rfl, rfl, rfl, rfl,
    rfl, fun q => posIndex_of_nextPos, nextPos_eq_none_iff⟩
  · exact (fbRead_fbWrite hwf).trans (if_pos rfl)
  · exact (fbRead_fbWrite hwf).trans (if_neg hn)

/-! ### UNPACK (R170, R171) -/

/-- R170: an UNPACK of a well-formed input, run past its completion: the framebuffer holds the pixels, and nothing else
that has a specified value has changed but the VALID bits and the record of the completion. -/
theorem exec_unpack_run {s : State} (hwf : FrameMem.wf s.fb) (hb : s.busy = false) (hok : inputOk s = true) :
    ∃ u fb, exec .unpack s = .next u ∧ FrameMem.wf fb ∧ (∀ p, fbRead fb (fbAddr p) = pixel s.img p) ∧
      ∀ n, 32001 ≤ n →
        engineRun n u = drawIdle (complete .none { s with fb := fb, fbValid := true, catValid := false }) := by
  obtain ⟨fb, l, e, hw, hpix⟩ := unpack_end
    (s := start opUnpack .unpacking { s with errCode := 0, fbValid := false, catValid := false }) hwf rfl rfl
  refine ⟨_, fb, congrArg Host.Outcome.next (accept_startDecoding_ok opUnpack hb hok), hw, hpix, fun n hn => ?_⟩
  obtain ⟨k, rfl⟩ := Nat.exists_eq_add_of_le hn
  rw [engineRun_add, e]
  exact engineRun_idle rfl k

/-- Settles O52, by the run of the command past its completion. -/
theorem unpackBuildsTheFramebuffer : Obligations.UnpackBuildsTheFramebuffer := by
  intro s h hb hcount hovf
  obtain ⟨u, fb, hu, hw, hpix, hrun⟩ := exec_unpack_run h.fbWf hb ((inputOk_iff s).2 ⟨hcount, hovf⟩)
  refine ⟨u, hu, 32001, fun n hn => ?_⟩
  rw [hrun n hn]
  exact ⟨rfl, rfl, rfl, rfl, intUpdate_set _ _, hw, hpix⟩

/-! ### UNPACK then CATALOG against LOAD (R172) -/

/-- R140, R200, R201: `t` is at the start of the catalog phase, over the framebuffer `fb`, of a LOAD or CATALOG that was
accepted in `s`. -/
structure StartsCatalog (s : State) (fb : FrameMem) (t : State) : Prop where
  phase : t.phase = .cataloging
  cursor : t.cursor = some firstPos
  op : t.opLat = opLoad ∨ t.fbValid = true
  fb : t.fb = fb
  kLat : t.kLat = s.cfgKeytab
  cat : t.cat = s.cat
  intStatus : t.intStatus = s.intStatus

/-- R140: a LOAD of a well-formed input reaches its catalog phase, over the pixels. -/
theorem exec_load_startsCatalog {s : State} (hwf : FrameMem.wf s.fb) (hb : s.busy = false) (hok : inputOk s = true) :
    ∃ a fb, exec .load s = .next a ∧ FrameMem.wf fb ∧ (∀ p, fbRead fb (fbAddr p) = pixel s.img p) ∧
      StartsCatalog s fb (engineRun 32001 a) := by
  obtain ⟨fb, l, e, hw, hpix⟩ := unpack_end
    (s := start opLoad .unpacking { s with errCode := 0, fbValid := false, catValid := false }) hwf rfl rfl
  refine ⟨_, fb, congrArg Host.Outcome.next (accept_startDecoding_ok opLoad hb hok), hw, hpix, ?_⟩
  rw [e]
  exact ⟨rfl, rfl, .inl rfl, rfl, rfl, rfl, rfl⟩

/-- R201: a CATALOG over a valid framebuffer starts its phase at once. -/
theorem exec_catalog_startsCatalog {s : State} {fb : FrameMem} (hb : s.busy = false) (hv : s.fbValid = true)
    (hfb : s.fb = fb) : ∃ c, exec .catalog s = .next c ∧ StartsCatalog s fb c :=
  ⟨_, catalogStartsOnAValidFramebuffer s hb hv, rfl, rfl, .inr hv, hfb, rfl, rfl, rfl⟩

/-- R131, R140, R201: the completion of a LOAD or CATALOG whose catalog phase left `s`: both VALID bits are set. -/
def catalogDone (s : State) : State := drawIdle (complete .none { s with fbValid := true, catValid := true })

theorem catalogDone_intStatus (s : State) : (catalogDone s).intStatus = s.intStatus ||| intDone := intUpdate_set _ _

/-- The end of the catalog phase is the same, whichever command runs it. -/
theorem endCatalog_eq_catalogDone {s : State} (h : s.opLat = opLoad ∨ s.fbValid = true) :
    endCatalog s = catalogDone s := by
  rcases endCatalog_cases s with ⟨-, e⟩ | ⟨ho, e⟩
  · exact e
  · rw [e, catalogDone, ← h.resolve_left ho]

theorem SameButCatalog.fb {s t : State} (h : SameButCatalog s t) : t.fb = s.fb := (congrArg State.fb h.rest :)

theorem SameButCatalog.intStatus {s t : State} (h : SameButCatalog s t) : t.intStatus = s.intStatus :=
  (congrArg State.intStatus h.rest :)

/-- R200: a catalog phase run past its end completes, and leaves the counts of its 32000 statements. -/
theorem StartsCatalog.run {s t : State} {fb : FrameMem} (h : StartsCatalog s fb t) (hwf : CatMem.wf s.cat) {n : Nat}
    (hn : 32001 ≤ n) :
    SameButCatalog t (engineRun 32000 t) ∧ engineRun n t = catalogDone (engineRun 32000 t) := by
  obtain ⟨hsame, hcur, -⟩ : SameButCatalog t (engineRun 32000 t) ∧ (engineRun 32000 t).cursor = cursorAt 32000 ∧ _ :=
    catalog_run (h.cat ▸ hwf) h.phase h.cursor 31999 (by omega)
  have hphase : (engineRun 32000 t).phase = .cataloging := by rw [hsame.rest]; exact h.phase
  have hop : (engineRun 32000 t).opLat = opLoad ∨ (engineRun 32000 t).fbValid = true := by rw [hsame.rest]; exact h.op
  obtain ⟨k, rfl⟩ := Nat.exists_eq_add_of_le hn
  refine ⟨hsame, ?_⟩
  rw [engineRun_add, engineRun_succ', engineStep_endCatalog hphase (hcur.trans cursorAt_last),
    endCatalog_eq_catalogDone hop]
  exact engineRun_idle rfl k

/-- What a host reads of a completed LOAD or CATALOG (R140, R201): the memories, NCAT, the VALID bits and BUSY. -/
structure SameResults (a c : State) : Prop where
  busy : a.busy = false
  busy' : c.busy = false
  fb : a.fb = c.fb
  hist : a.hist = c.hist
  ncat : a.ncat = c.ncat
  cat : a.cat = c.cat
  fbValid : a.fbValid = c.fbValid
  catValid : a.catValid = c.catValid

theorem sameResults_catalogDone {u v : State} (hfb : u.fb = v.fb) (hhist : u.hist = v.hist) (hncat : u.ncat = v.ncat)
    (hcat : u.cat = v.cat) : SameResults (catalogDone u) (catalogDone v) :=
  ⟨rfl, rfl, hfb, hhist, hncat, hcat, rfl, rfl⟩

/-- R172: what a catalog phase leaves follows from the framebuffer, CFG.KEYTAB and the catalog memory, whichever command
runs it. -/
theorem StartsCatalog.sameResults {s s' t t' : State} {fb : FrameMem} (h : StartsCatalog s fb t)
    (h' : StartsCatalog s' fb t') (hwf : CatMem.wf s.cat) (hk : s'.cfgKeytab = s.cfgKeytab) (hcat : s'.cat = s.cat)
    {n k : Nat} (hn : 32001 ≤ n) (hk' : 32001 ≤ k) : SameResults (engineRun n t) (engineRun k t') := by
  have hwf' : CatMem.wf s'.cat := hcat ▸ hwf
  have hfb : t.fb = t'.fb := h.fb.trans h'.fb.symm
  obtain ⟨hsame, e⟩ := h.run hwf hn
  obtain ⟨hsame', e'⟩ := h'.run hwf' hk'
  obtain ⟨hhist, hc, hncat⟩ : (engineRun 32000 t).hist = (engineRun 32000 t').hist ∧
      (engineRun 32000 t).cat = (engineRun 32000 t').cat ∧ (engineRun 32000 t).ncat = (engineRun 32000 t').ncat :=
    catalog_run_agrees (h'.cat ▸ hwf') h'.phase h'.cursor (h.cat ▸ hwf) h.phase h.cursor hfb
      (h.kLat.trans (hk.symm.trans h'.kLat.symm)) (h.cat.trans (hcat.symm.trans h'.cat.symm)) 31999 (by omega)
  rw [e, e']
  exact sameResults_catalogDone (hsame.fb.trans (hfb.trans hsame'.fb.symm)) hhist hncat hc

/-- R131: the completion raises DONE. -/
theorem StartsCatalog.intStatus_run {s t : State} {fb : FrameMem} (h : StartsCatalog s fb t) (hwf : CatMem.wf s.cat)
    {n : Nat} (hn : 32001 ≤ n) : (engineRun n t).intStatus = s.intStatus ||| intDone := by
  obtain ⟨hsame, e⟩ := h.run hwf hn
  rw [e, catalogDone_intStatus, hsame.intStatus, h.intStatus]

/-- Settles O58: both unpack phases build the framebuffer of the pixels, and over it the two catalog phases agree. -/
theorem unpackThenCatalogEqualsLoad : Obligations.UnpackThenCatalogEqualsLoad := by
  intro s k' h hb hcount hovf
  have hok : inputOk s = true := (inputOk_iff s).2 ⟨hcount, hovf⟩
  obtain ⟨a, fb, ha, hw, hpix, hload⟩ := exec_load_startsCatalog h.fbWf hb hok
  obtain ⟨u, fb', hu, hw', hpix', hunpack⟩ := exec_unpack_run (s := { s with cfgKeytab := k' }) h.fbWf hb hok
  obtain rfl : fb = fb' := framebuffer_ext hw hw' fun p => (hpix p).trans (hpix' p).symm
  refine ⟨64002, fun n m k hn hm hk => ?_⟩
  obtain ⟨i, rfl⟩ := Nat.exists_eq_add_of_le (show 32001 ≤ n by omega)
  have eu := hunpack m (by omega)
  obtain ⟨c, hc, hcatalog⟩ := exec_catalog_startsCatalog (s := { engineRun m u with cfgKeytab := s.cfgKeytab })
    (fb := fb) (by rw [eu]; rfl) (by rw [eu]; rfl) (by rw [eu]; rfl)
  have hcat : (engineRun m u).cat = s.cat := by rw [eu]; rfl
  have hint : (engineRun m u).intStatus = s.intStatus ||| intDone := by rw [eu]; exact intUpdate_set _ _
  have hres : SameResults (engineRun (32001 + i) a) (engineRun k c) := by
    rw [engineRun_add]
    exact hload.sameResults hcatalog h.catWf rfl hcat (by omega) (by omega)
  have hdone : (engineRun (32001 + i) a).intStatus = (engineRun k c).intStatus := by
    rw [engineRun_add, hload.intStatus_run h.catWf (by omega), hcatalog.intStatus_run (hcat ▸ h.catWf) (by omega),
      show _ = s.intStatus ||| intDone from hint, BitVec.or_assoc, BitVec.or_self]
  exact ⟨a, u, c, ha, hu, hc, hres.busy, hres.busy', hres.fb, hres.hist, hres.ncat,
    fun e _ => congrArg (catRead · e) hres.cat, hres.fbValid, hres.catValid, hdone⟩

end Sys2Proof.Machine
end

section
/-! SUPPORT. Proofs of the statements about the catalog phase (42_catalog.md R190 to R204): the digit tables and the key
of a cell, insert-or-count, one statement of the phase, and the histogram and catalog that CATALOG builds. -/

namespace Sys2Proof.Machine

/-! ### The digit tables and the key of a cell (R191, R193, R194) -/

/-- R191: the canonical table gives each color index itself. -/
theorem digit_canonical (v : Nibble) : digit v 0 = v := rfl

theorem digit_reference_of_le {v : Nibble} (h : v.toNat ≤ 9) : digit v 1 = v := if_pos h

theorem digit_reference_ten : digit 10 1 = 0 := rfl

theorem toNat_digit_reference_of_ge {v : Nibble} (h : 11 ≤ v.toNat) : (digit v 1).toNat = v.toNat - 1 := by
  have hne : v ≠ 10 := by rintro rfl; exact absurd h (by decide)
  have e : digit v 1 = v - 1 := (if_neg (show ¬ v.toNat ≤ 9 by omega)).trans (if_neg hne)
  have hle : (1 : Nibble) ≤ v := BitVec.le_def.2 (show 1 ≤ v.toNat by omega)
  exact e ▸ BitVec.toNat_sub_of_le hle

/-- Settles O41, by the ranges of the color index. -/
theorem digitTables : Obligations.DigitTables := by
  refine fun v => ⟨digit_canonical v, digit_reference_of_le, fun h => ?_, toNat_digit_reference_of_ge⟩
  obtain rfl : v = 10 := BitVec.eq_of_toNat_eq h
  exact digit_reference_ten

/-- R193: the digit of the cell's entry in row `r`, column `c`. -/
theorem digitAt_cellKey_entry (fb : FrameMem) (k : BitVec 1) (y x : Nat) {r c : Nat} (hr : r < 8) (hc : c < 4) :
    digitAt (cellKey fb k y x) (r * 4 + c) = digit (fbRead fb ((y * 8 + r) * 160 + (x * 4 + c))) k := by
  rw [digitAt_cellKey _ _ _ _ (by omega), show (r * 4 + c) / 4 = r by omega, show (r * 4 + c) % 4 = c by omega]

/-- Settles O60: a key's digits by row and column, then their place in its words, then the cell of an index. -/
theorem cellKeyHoldsItsDigitsInRowMajorOrder : Obligations.CellKeyHoldsItsDigitsInRowMajorOrder := by
  intro fb k y x
  refine ⟨fun r c => digitAt_cellKey_entry fb k y x, fun q t r c hq ht hc hpos => ?_, fun hx => ?_⟩
  · rw [extract_keyWord _ hq ht, ← hpos]
    exact digitAt_cellKey_entry fb k y x (by omega) hc
  · rw [keyOfCell, show (y * 40 + x) / 40 = y by omega, show (y * 40 + x) % 40 = x by omega]

/-! ### Insert-or-count (R198) -/

theorem insertOrCount_absent {s : State} {key : Key} (h : ∀ e, e < s.ncat.toNat → (catRead s.cat e).key ≠ key) :
    insertOrCount key s =
      { s with cat := catWrite s.cat s.ncat.toNat { key := key, count := 1 }, ncat := s.ncat + 1 } := by
  rcases insertOrCount_cases key s with ⟨-, eq⟩ | ⟨e, he, hk, -⟩
  · exact eq
  · exact absurd hk (h e he)

/-- R198: the entry counted is the first that holds the key. -/
theorem insertOrCount_present {s : State} {key : Key} {e : Nat} (he : e < s.ncat.toNat)
    (hk : (catRead s.cat e).key = key) (hfirst : ∀ e', e' < e → (catRead s.cat e').key ≠ key) :
    insertOrCount key s =
      { s with cat := catWrite s.cat e { key := key, count := (catRead s.cat e).count + 1 } } := by
  subst hk
  rcases insertOrCount_cases (catRead s.cat e).key s with ⟨hno, -⟩ | ⟨e', he', hk', hfirst', eq⟩
  · exact absurd rfl (hno e he)
  · obtain rfl : e' = e := by
      rcases Nat.lt_trichotomy e' e with hlt | heq | hgt
      · exact absurd hk' (hfirst e' hlt)
      · exact heq
      · exact absurd rfl (hfirst' e hgt)
    exact eq

/-- R198: insert-or-count changes nothing but the catalog. -/
theorem insertOrCount_rest (key : Key) (s : State) :
    insertOrCount key s = { s with cat := (insertOrCount key s).cat, ncat := (insertOrCount key s).ncat } := by
  rcases insertOrCount_cases key s with ⟨-, eq⟩ | ⟨_, -, -, -, eq⟩ <;> rw [eq]

/-- Settles O44, by whether an entry in use holds the key. -/
theorem insertOrCountUpdatesOneEntry : Obligations.InsertOrCountUpdatesOneEntry := by
  intro s key hwf
  refine ⟨insertOrCount_rest key s, fun hno hlt => ?_, fun e he hk hfirst => ?_⟩
  · rw [insertOrCount_absent hno]
    refine ⟨BitVec.toNat_add_of_lt (by simp; omega), ?_, fun e he => ?_⟩
    · exact (catRead_catWrite hwf).trans (if_pos rfl)
    · exact (catRead_catWrite hwf).trans (if_neg he)
  · rw [insertOrCount_present he hk hfirst]
    refine ⟨rfl, ?_, fun e' he' => ?_⟩
    · exact (catRead_catWrite hwf).trans (if_pos rfl)
    · exact (catRead_catWrite hwf).trans (if_neg he')

/-! ### One statement of the phase (R196, R197, R200) -/

/-- R193, R200: the scan of an entry sets the digit of its position and keeps the others. -/
theorem digitAt_scanEntry_key (p : Pos) (s : State) {n : Nat} (hn : n < 32) :
    digitAt (scanEntry p s).latches.key n =
      if n = digitPos p then digit (fbRead s.fb (fbAddr p)) s.kLat else digitAt s.latches.key n :=
  digitAt_setDigit _ _ (digitPos_lt p) hn

/-- R196, R197: the first counter to be raised is raised from 0. -/
theorem histIncrement_cleared (v : Nibble) (c : Fin 16) :
    (histIncrement (Vector.replicate 16 0) v)[c] = if c.val = v.toNat then 1 else 0 := by
  rw [histIncrement_get]
  simp

/-- Settles O43: the first position clears the counts and is not a cell's last, and any other position scans on. -/
theorem catalogStepCountsItsEntry : Obligations.CatalogStepCountsItsEntry := by
  intro s p hp hc
  have hstep : engineStep s = _ := (engineStep_cataloging hp hc).trans (catalogStatement_eq_scanBody p s)
  have hkey (n : Nat) (hn : n < 32) := digitAt_scanEntry_key p s hn
  by_cases hfirst : p = firstPos
  · have hlast : ¬ (p.i = 7 ∧ p.j = 3) := by rw [hfirst]; decide
    rw [if_pos hfirst, scanBody_eq, if_neg hlast, if_neg hlast] at hstep
    exact ⟨_, _, _, _, _, hstep, rfl, hkey, fun hne => absurd hfirst hne,
      fun _ => ⟨rfl, histIncrement_cleared _⟩, fun _ => ⟨rfl, fun hne => absurd hfirst hne⟩,
      fun h => absurd h hlast, fun _ => posIndex_of_nextPos, nextPos_eq_none_iff⟩
  · rw [if_neg hfirst, scanBody_eq] at hstep
    exact ⟨_, _, _, _, _, hstep, rfl, hkey, fun _ => histIncrement_get _ _, fun h => absurd h hfirst,
      fun h => ⟨if_neg h, fun _ => if_neg h⟩, fun h => ⟨if_pos h, if_pos h⟩, fun _ => posIndex_of_nextPos,
      nextPos_eq_none_iff⟩

/-! ### What the catalog holds of the cells (R199, R202) -/

/-- R202: the keys of the entries are the keys of the cells. -/
theorem CatUpTo.image_key {fb : FrameMem} {k : BitVec 1} {m ncat : Nat} {cat : CatMem} (h : CatUpTo fb k m ncat cat) :
    ((Finset.range ncat).image fun e => (catRead cat e).key) = (Finset.range m).image (keyOfCell fb k) := by
  ext key
  simp only [Finset.mem_image, Finset.mem_range]
  constructor
  · rintro ⟨e, he, rfl⟩
    exact h.sound e he
  · rintro ⟨c, hc, rfl⟩
    exact h.complete c hc

/-- R202: NCAT is the number of distinct keys. -/
theorem CatUpTo.ncat_eq {fb : FrameMem} {k : BitVec 1} {m ncat : Nat} {cat : CatMem} (h : CatUpTo fb k m ncat cat) :
    ncat = ((Finset.range m).image (keyOfCell fb k)).card := by
  rw [← h.image_key, Finset.card_image_of_injOn, Finset.card_range]
  exact fun e he e' he' => h.distinct e e' (Finset.mem_range.1 he) (Finset.mem_range.1 he')

/-- R199: the first entry holds the key of cell 0. -/
theorem CatUpTo.key_zero {fb : FrameMem} {k : BitVec 1} {m ncat : Nat} {cat : CatMem} (h : CatUpTo fb k m ncat cat)
    (hm : 0 < m) : (catRead cat 0).key = keyOfCell fb k 0 := by
  obtain ⟨e, he, hk⟩ := h.complete 0 hm
  rcases Nat.eq_zero_or_pos e with rfl | hpos
  · exact hk
  · obtain ⟨c, -, -, hbefore⟩ := h.ordered 0 e hpos he
    exact absurd hk.symm (hbefore 0 (Nat.zero_le c))

/-! ### CATALOG past its completion (R201) -/

/-- R201: what CATALOG, accepted in `s`, leaves in `t` when it has completed. -/
structure CatalogCompleted (s t : State) : Prop where
  busy : t.busy = false
  fbValid : t.fbValid = true
  catValid : t.catValid = true
  errCode : t.errCode = 0
  fb : t.fb = s.fb
  scan : ScanUpTo s.fb s.cfgKeytab 32000 t

/-- R131: the completion changes none of the counts, and after a cell's last entry no digit is in progress. -/
theorem ScanUpTo.catalogCompleted {s u : State} (h : ScanUpTo s.fb s.cfgKeytab 32000 u) (hfb : u.fb = s.fb) :
    CatalogCompleted s (catalogDone u) where
  busy := rfl
  fbValid := rfl
  catValid := rfl
  errCode := rfl
  fb := hfb
  scan := ⟨h.catWf, h.hist, h.cat, fun _ hj => absurd hj (Nat.not_lt_zero _)⟩

/-- R200: the catalog phase scans the whole framebuffer. -/
theorem StartsCatalog.scan {s t : State} {fb : FrameMem} (h : StartsCatalog s fb t) (hwf : CatMem.wf s.cat) :
    ScanUpTo fb s.cfgKeytab 32000 (engineRun 32000 t) := by
  obtain ⟨-, -, hscan⟩ := catalog_run (h.cat ▸ hwf) h.phase h.cursor 31999 (by omega)
  rwa [h.fb, h.kLat] at hscan

/-- R200, R201: CATALOG over a valid framebuffer is accepted, and completes after the scan of all 32000 entries. -/
theorem exec_catalog_completed {s : State} (hwf : CatMem.wf s.cat) (hb : s.busy = false) (hv : s.fbValid = true) :
    ∃ c, exec .catalog s = .next c ∧ ∀ n, 32001 ≤ n → CatalogCompleted s (engineRun n c) := by
  obtain ⟨c, hc, hstart⟩ := exec_catalog_startsCatalog hb hv rfl
  refine ⟨c, hc, fun n hn => ?_⟩
  obtain ⟨hsame, hrun⟩ := hstart.run hwf hn
  rw [hrun]
  exact (hstart.scan hwf).catalogCompleted (hsame.fb.trans hstart.fb)

/-- R196, R203: each counter is the number of framebuffer entries with its color index. -/
theorem ScanUpTo.hist_eq_card {fb : FrameMem} {k : BitVec 1} {t : State} (h : ScanUpTo fb k 32000 t) (c : Fin 16) :
    t.hist[c].toNat = ((Finset.range 32000).filter fun m => (fbRead fb m).toNat = c.val).card :=
  (h.hist c).trans (card_scannedEntry fb c.val)

/-- Settles O54: the scan visits each framebuffer entry once, and its counters and counts sum to what it visited. -/
theorem catalogCountsTheFramebuffer : Obligations.CatalogCountsTheFramebuffer := by
  intro s h hb hv
  obtain ⟨c, hc, hdone⟩ := exec_catalog_completed h.catWf hb hv
  refine ⟨c, hc, 32001, fun n hn => ?_⟩
  have hscan := (hdone n hn).scan
  exact ⟨hscan.hist_eq_card, hscan.sum_hist, hscan.cat.sum_counts⟩

/-- Settles O55, by what the catalog holds after the last of the 1000 cells. -/
theorem catalogHoldsEveryCellKeyOnce : Obligations.CatalogHoldsEveryCellKeyOnce := by
  intro s h hb hv
  obtain ⟨c, hc, hdone⟩ := exec_catalog_completed h.catWf hb hv
  refine ⟨c, hc, 32001, fun n hn => ?_⟩
  have hend := hdone n hn
  have hcat : CatUpTo s.fb s.cfgKeytab 1000 _ _ := hend.scan.cat
  obtain ⟨e, he, -⟩ := hcat.complete 0 (by omega)
  exact ⟨hend.busy, hend.catValid, hend.fbValid, hend.errCode, hend.fb, by omega, hcat.ncat_le, hcat.ncat_eq,
    hcat.distinct, hcat.complete, hcat.counts⟩

/-- Settles O56, by the order that every insertion keeps. -/
theorem catalogEntriesStandInFirstCellOrder : Obligations.CatalogEntriesStandInFirstCellOrder := by
  intro s h hb hv
  obtain ⟨c, hc, hdone⟩ := exec_catalog_completed h.catWf hb hv
  refine ⟨c, hc, 32001, fun n hn => ?_⟩
  have hcat : CatUpTo s.fb s.cfgKeytab 1000 _ _ := (hdone n hn).scan.cat
  exact ⟨hcat.key_zero (by omega), hcat.ordered⟩

/-! ### The two digit tables over one framebuffer (R204) -/

/-- R196, R204: the histogram follows from the framebuffer alone. -/
theorem ScanUpTo.hist_eq {fb : FrameMem} {k k' : BitVec 1} {n : Nat} {t t' : State} (h : ScanUpTo fb k n t)
    (h' : ScanUpTo fb k' n t') : t.hist = t'.hist := by
  refine Vector.ext fun i hi => BitVec.eq_of_toNat_eq ?_
  exact (h.hist ⟨i, hi⟩).trans (h'.hist ⟨i, hi⟩).symm

/-- R191, R204: a cell's digits under any table follow from its digits under the canonical one. -/
theorem digitAt_keyOfCell_canonical (fb : FrameMem) (k : BitVec 1) (c : Nat) {j : Nat} (hj : j < 32) :
    digitAt (keyOfCell fb k c) j = digit (digitAt (keyOfCell fb 0 c) j) k := by
  rw [digitAt_keyOfCell _ _ _ hj, digitAt_keyOfCell _ _ _ hj, digit_canonical]

/-- R204: cells with one canonical key have one key under any table. -/
theorem keyOfCell_factorsThrough (fb : FrameMem) (k : BitVec 1) :
    (keyOfCell fb k).FactorsThrough (keyOfCell fb 0) := fun c c' hcc => by
  refine key_ext fun j hj => ?_
  rw [digitAt_keyOfCell_canonical fb k c hj, hcc, ← digitAt_keyOfCell_canonical fb k c' hj]

/-- R204: no table has more distinct keys than the canonical one. -/
theorem card_image_keyOfCell_le (fb : FrameMem) (k : BitVec 1) (m : Nat) :
    ((Finset.range m).image (keyOfCell fb k)).card ≤ ((Finset.range m).image (keyOfCell fb 0)).card := by
  rw [← (keyOfCell_factorsThrough fb k).extend_comp (e' := fun _ => 0), ← Finset.image_image]
  exact Finset.card_image_le

/-- Settles O57: the histogram counts color indices and not digits, and NCAT counts the distinct keys. -/
theorem histIgnoresDigitTableAndNcatDoesNotGrow : Obligations.HistIgnoresDigitTableAndNcatDoesNotGrow := by
  intro s h hb hv
  obtain ⟨c0, hc0, hdone0⟩ := exec_catalog_completed (s := { s with cfgKeytab := 0 }) h.catWf hb hv
  obtain ⟨c1, hc1, hdone1⟩ := exec_catalog_completed (s := { s with cfgKeytab := 1 }) h.catWf hb hv
  refine ⟨c0, c1, hc0, hc1, 32001, fun n hn => ?_⟩
  have hend0 := hdone0 n hn
  have hend1 := hdone1 n hn
  refine ⟨hend0.busy, hend1.busy, hend0.scan.hist_eq hend1.scan, ?_⟩
  rw [hend0.scan.cat.ncat_eq, hend1.scan.cat.ncat_eq]
  exact card_image_keyOfCell_le s.fb 1 _

end Sys2Proof.Machine
end

section
/-! SUPPORT. Proofs of the statements about errors and interrupts (60_exceptions.md R220 to R234): an error is a completion
and no stop, and a running command comes nearer to its completion with every engine step. -/

namespace Sys2Proof.Machine

/-! ### The INT_STATUS update (R231) -/

/-- Settles O25: the set events are or-ed in after the clear has been masked out. -/
theorem setWinsOverClear : Obligations.SetWinsOverClear := by
  intro old set clr n hn
  rw [intUpdate, BitVec.getLsbD_or, BitVec.getLsbD_and, BitVec.getLsbD_not, decide_eq_true hn, Bool.true_and,
    Bool.or_comm]

/-! ### No stop (R62, R226, R232) -/

theorem exec_next (i : Instr) (s : State) : ∃ t, exec i s = .next t := by
  cases i <;> exact ⟨_, rfl⟩

theorem busStep_next (txn : HostTxn) (s : State) : ∃ t, busStep txn s = .next t := by
  unfold busStep
  split
  · exact exec_next _ s
  · exact ⟨_, rfl⟩

/-- Settles O8, by the move the step takes: only a transaction could stop, and every instruction has a meaning. -/
theorem everyStepAnswersANextState : Obligations.EveryStepAnswersANextState := by
  intro s
  cases hin : s.inputs with
  | nil => exact ⟨_, step_waiting hin⟩
  | cons move rest =>
    cases move with
    | bus txn => rw [step_bus hin]; exact busStep_next txn _
    | engine work => exact ⟨_, step_engine hin⟩
    | reset => exact ⟨_, step_reset hin⟩

/-! ### CATALOG with no framebuffer (R224) -/

/-- Settles O17: the acceptance completes at once, before it drops CAT_VALID. -/
theorem catalogWithoutFramebufferCompletesWithItsCode :
    Obligations.CatalogWithoutFramebufferCompletesWithItsCode := by
  intro s hb hp hfb
  have hcheck : startCatalog { s with errCode := 0 } = complete .noFramebuffer { s with errCode := 0 } :=
    if_neg (by simp [hfb])
  refine congrArg Host.Outcome.next ?_
  rw [accept_idle hb, hcheck]
  exact complete_idle .noFramebuffer hb hp

/-! ### A BUSY command completes (R226, R271) -/

/-- How many statements of a phase the cursor still has before it (R41, R167, R200). -/
def statementsLeft : Option Pos → Nat
  | some p => 32000 - posIndex p
  | none => 0

/-- A bound on the engine steps to completion: the end of a phase is a step of its own, and an unpack phase may have the
whole catalog phase after it (R140). -/
def stepsLeft (s : State) : Nat :=
  match s.phase with
  | .idle => 0
  | .cataloging => statementsLeft s.cursor + 1
  | .unpacking => statementsLeft s.cursor + 32002

/-- R41: the cursor's advance leaves one statement fewer. -/
theorem statementsLeft_nextPos (p : Pos) : statementsLeft (nextPos p) < statementsLeft (some p) := by
  have := posIndex_lt p
  rcases nextPos_cases p with ⟨q, e, hidx⟩ | ⟨e, _⟩ <;> rw [e] <;> simp only [statementsLeft] <;> omega

theorem stepsLeft_cataloging {s : State} (hp : s.phase = .cataloging) :
    stepsLeft s = statementsLeft s.cursor + 1 := by simp [stepsLeft, hp]

theorem stepsLeft_unpacking {s : State} (hp : s.phase = .unpacking) :
    stepsLeft s = statementsLeft s.cursor + 32002 := by simp [stepsLeft, hp]

/-- R131, R226: the command has completed, with code 0, and DONE is set. -/
structure CompletedOk (s : State) : Prop where
  busy : s.busy = false
  errCode : s.errCode = 0
  done : s.intStatus.getLsbD 0 = true

/-- R131: the engine ends a command with code NONE. -/
theorem completedOk_complete_none (s : State) : CompletedOk (drawIdle (complete .none s)) :=
  ⟨rfl, rfl, (completionRecordsCodeAndInterrupts .none s).2.1⟩

/-- An engine step of a BUSY command completes it with code 0, or leaves it BUSY and nearer to its completion. -/
theorem engineStep_progress {s : State} (h : Inv s) (hb : s.busy = true) :
    CompletedOk (engineStep s) ∨ (engineStep s).busy = true ∧ stepsLeft (engineStep s) < stepsLeft s := by
  rcases engineStep_cases s with ⟨hp, _⟩ | ⟨p, hp, hc, e⟩ | ⟨hp, hc, e⟩ | ⟨p, hp, hc, e⟩ | ⟨hp, hc, e⟩
  · exact absurd (hb.symm.trans (h.idle_iff.1 hp)) (by decide)
  · refine .inr ⟨by rw [e]; exact hb, ?_⟩
    rw [e, stepsLeft_unpacking hp, stepsLeft_unpacking (s := unpackStatement p s) hp, hc]
    exact Nat.add_lt_add_right (statementsLeft_nextPos p) _
  · rcases endUnpack_cases s with ⟨_, e'⟩ | ⟨_, e'⟩ <;> rw [e, e']
    · refine .inr ⟨hb, ?_⟩
      rw [stepsLeft_unpacking hp, stepsLeft_cataloging rfl, hc]
      exact (by decide : statementsLeft (some firstPos) + 1 < statementsLeft none + 32002)
    · exact .inl (completedOk_complete_none _)
  · obtain ⟨hrest⟩ := sameButCatalog_catalogStatement p s
    have hp' : (catalogStatement p s).phase = .cataloging := by rw [hrest]; exact hp
    refine .inr ⟨by rw [e, hrest]; exact hb, ?_⟩
    rw [e, stepsLeft_cataloging hp, stepsLeft_cataloging hp', hc]
    exact Nat.add_lt_add_right (statementsLeft_nextPos p) _
  · rcases endCatalog_cases s with ⟨_, e'⟩ | ⟨_, e'⟩ <;> rw [e, e'] <;>
      exact .inl (completedOk_complete_none _)

/-- R226, R271: the run to the completion, by induction on the bound on the steps left. -/
theorem exists_engineRun_completedOk {s : State} (h : Inv s) (hb : s.busy = true) :
    ∃ n, CompletedOk (engineRun n s) ∧ ∀ m, m < n → (engineRun m s).busy = true := by
  induction hk : stepsLeft s using Nat.strong_induction_on generalizing s with
  | _ k ih =>
    rcases engineStep_progress h hb with hdone | ⟨hb', hlt⟩
    · refine ⟨1, hdone, fun m hm => ?_⟩
      obtain rfl : m = 0 := by omega
      exact hb
    · obtain ⟨n, hdone, hbefore⟩ := ih _ (hk ▸ hlt) (inv_engineStep h) hb' rfl
      refine ⟨n + 1, hdone, fun m hm => ?_⟩
      cases m with
      | zero => exact hb
      | succ m => exact hbefore m (by omega)

/-- Settles O51, by the run to the first state in which the command has completed. -/
theorem busyCommandCompletesWithoutError : Obligations.BusyCommandCompletesWithoutError := by
  intro s h hb
  obtain ⟨n, hdone, hbefore⟩ := exists_engineRun_completedOk h hb
  exact ⟨n, hdone.busy, hdone.errCode, hdone.done, hbefore⟩

end Sys2Proof.Machine
end

section
/-! SUPPORT. Proof of the statement about reset (70_reset_and_hazards.md R250, R251): with both VALID bits down and IN_COUNT
0, every window is gated, so that the memories, whose values after reset are not specified, do not show. -/

namespace Sys2Proof.Machine

/-! ### The IMG window of an empty input (R63) -/

/-- R63: with IN_COUNT = 0 no byte of IMG is shown. -/
theorem imgByte_empty {s : State} (h : s.inCount = 0) (m : Nat) : imgByte s m = 0 := by
  rw [imgByte, h]
  exact if_neg fun hm => Nat.not_lt_zero m hm.1

theorem imgWindow_empty {s : State} (h : s.inCount = 0) (k : Nat) : imgWindow s k = 0 := by
  simp only [imgWindow, imgByte_empty h]
  rfl

/-- R63 to R66: with both VALID bits down and an empty input every window word reads 0. -/
theorem hostRead_window_hidden {s : State} (hfb : s.fbValid = false) (hcat : s.catValid = false) (hin : s.inCount = 0)
    {a : WordAddr} (h : 0x40 ≤ a.toNat) : hostRead s a = 0 := by
  by_cases himg : 0x1000 ≤ a.toNat ∧ a.toNat < 0x19C5
  · have hloc : locate a = .img (a.toNat - 0x1000) := locate_img (by omega) (by omega)
    rw [hostRead_of_locate hloc]
    exact imgWindow_empty hin _
  · exact hostRead_window_invalid hfb hcat h (by omega)

/-! ### Reset (R250, R251) -/

/-- R33: no IRQ while no interrupt is pending. -/
theorem irq_of_no_pending {s : State} (h : s.intStatus = 0) : irq s = false := by
  simp [irq, h]

/-- Settles O38: reset writes every specified field from any state, BUSY or not; nothing is pending after it, and the
windows are gated by the two VALID bits and IN_COUNT, whatever values reset draws for the memories. -/
theorem resetAbandonsAndHidesTheMemories : Obligations.ResetAbandonsAndHidesTheMemories := by
  intro s
  have hirq : irq (resetBlock s) = false := irq_of_no_pending (resetBlock_intStatus s)
  have hwindows : ∀ a : WordAddr, 0x40 ≤ a.toNat → hostRead (resetBlock s) a = 0 := fun _ =>
    hostRead_window_hidden (resetBlock_fbValid s) (resetBlock_catValid s) (resetBlock_inCount s)
  exact ⟨resetBlock s, rfl, rfl, rfl, rfl, rfl, rfl, rfl, rfl, rfl, rfl, rfl, rfl, hirq, hwindows⟩

end Sys2Proof.Machine
end
